-- ==== Sys2Proof/Word.lean ====
section
/-!
DEFINITION. The word type: every register value, data word and byte offset of the block is a 32-bit
unsigned integer (spec/00_scope.md rule R14, spec/30_encoding.md rule R70, rule R74).
-/

namespace Sys2Proof

/-- A `UInt32` of the spec: bit 0 is the least significant bit, every comparison is unsigned (rule R14). -/
abbrev Word := BitVec 32

end Sys2Proof
end

