-- ==== Sys2Proof/Config.lean ====
section
/-!
DEFINITION. The implementation parameters (spec/00_scope.md rule R5 to rule R10), the offset formulas
of the register map (spec/30_encoding.md rule R73), and the free value `Config.freeWord` that stands for
the spec's `draw()` (rule R16). Every parameter is OPEN in the spec: a `Config` is an argument of every
definition below, and no number of the reference layout is used outside `Config.reference`.
-/

namespace Sys2Proof

/-- How the priority encoder resolves a tie between equal priorities (rule R9, rule R134). -/
inductive TieBreak where
  /-- Any element of the maximal set, chosen by a free value (the spec's default). -/
  | any
  /-- The lowest ID of the maximal set. -/
  | lowestId
  deriving DecidableEq, Repr

/-- The configuration of one block: rule R5 (`N`), R6 (`MAX_PRIORITY`), R7 (`NUM_HARTS`), R8 (the layout)
and R9 (`TIE_BREAK`, `COMPLETE_REQUIRES_ENABLE`). Offsets and strides are in bytes. -/
structure Config where
  /-- `N`: the sources are the IDs `1..N`. -/
  numSources : Nat
  /-- `MAX_PRIORITY`: the largest legal priority and threshold value. -/
  maxPriority : Nat
  /-- `NUM_HARTS`: the contexts are `0..NUM_HARTS-1`, one per hart. -/
  numHarts : Nat
  /-- `BASE`: the block's base address in the host's physical address space. -/
  base : Nat
  priorityOffset : Nat
  enableOffset : Nat
  enableStride : Nat
  thresholdOffset : Nat
  thresholdStride : Nat
  claimOffset : Nat
  claimStride : Nat
  tieBreak : TieBreak
  completeRequiresEnable : Bool
  deriving DecidableEq, Repr

/-- The free value (the spec's `draw()`, rule R16): under no law, one value for each use. It is applied to
the plain counter `Machine.State.draws`, which every use advances. It has no body: nothing can be proved
of the value it takes (log entry 2). -/
opaque Config.freeWord : Nat → Word

/-- `NUM_ENABLE_WORDS` (rule R9). -/
def Config.numEnableWords (cfg : Config) : Nat := cfg.numSources / 32 + 1

/-- `id` names a source: `1 <= id <= N` (rule R5). -/
def Config.isSource (cfg : Config) (id : Nat) : Bool := decide (1 ≤ id) && decide (id ≤ cfg.numSources)

/-- `c` names a context: `c < NUM_HARTS` (rule R7). -/
def Config.isContext (cfg : Config) (c : Nat) : Bool := decide (c < cfg.numHarts)

/-- `w` indexes an implemented enable word (rule R9, rule R73). -/
def Config.isEnableWord (cfg : Config) (w : Nat) : Bool := decide (w < cfg.numEnableWords)

/-- `PRIO(id)`: the byte offset of source `id`'s priority register (rule R73, rule R75). -/
def Config.prioOff (cfg : Config) (id : Nat) : Nat := cfg.priorityOffset + 4 * id

/-- The byte offset of enable word 0 of context `c` (rule R59). -/
def Config.enableBase (cfg : Config) (c : Nat) : Nat := cfg.enableOffset + c * cfg.enableStride

/-- `ENW(c, w)`: the byte offset of enable word `w` of context `c` (rule R73, rule R76). -/
def Config.enwOff (cfg : Config) (c w : Nat) : Nat := cfg.enableBase c + 4 * w

/-- `THR(c)`: the byte offset of context `c`'s threshold register (rule R73). -/
def Config.thrOff (cfg : Config) (c : Nat) : Nat := cfg.thresholdOffset + c * cfg.thresholdStride

/-- `CLM(c)`: the byte offset of context `c`'s claim/complete register (rule R73). -/
def Config.clmOff (cfg : Config) (c : Nat) : Nat := cfg.claimOffset + c * cfg.claimStride

/-- The reference layout of rule R10 with `n` sources and `h` harts. The spec marks these numbers
[from general knowledge, not in source]: they are used for test vectors, for the table's numeric columns
and for `Machine.State.reset` only (log entry 1). -/
def Config.referenceLayout (n h : Nat) : Config where
  numSources := n
  maxPriority := 7
  numHarts := h
  base := 0x0C000000
  priorityOffset := 0x000000
  enableOffset := 0x002000
  enableStride := 0x80
  thresholdOffset := 0x200000
  thresholdStride := 0x1000
  claimOffset := 0x200004
  claimStride := 0x1000
  tieBreak := .any
  completeRequiresEnable := false

/-- The reference configuration of the spec's test vectors: `N = 4`, `MAX_PRIORITY = 7`, `NUM_HARTS = 2`
(rule R10), `TIE_BREAK = Any`, `COMPLETE_REQUIRES_ENABLE = false` (the defaults of D12 and D16). -/
def Config.reference : Config := Config.referenceLayout 4 2

end Sys2Proof
end

