-- ==== Sys2Proof/Transaction.lean ====
section
/-!
DEFINITION. What reaches the block from outside (spec/30_encoding.md rule R70): host transactions and
source events. The block has no instruction stream of its own; these are its "instructions" before decode.
-/

namespace Sys2Proof

/-- The `kind` field of a transaction (rule R70). -/
inductive AccessKind where
  | read
  | write
  | fetch
  deriving DecidableEq, Repr

/-- An access of `size` bytes at a place of type `α`; a write carries the data word (rule R70). The size is
any the bus carries, a burst included (rule R52). -/
inductive Access (α : Type) where
  | read (size : Nat) (off : α)
  | write (size : Nat) (off : α) (data : Word)
  | fetch (size : Nat) (off : α)
  deriving DecidableEq, Repr

/-- A transaction as the block sees it: the place is the byte offset from `BASE`, a `UInt32` (rule R70). -/
abbrev Transaction := Access Word

/-- An access as the host issues it: the place is a physical address (rule R51). Its width is the host's. -/
abbrev BusAccess := Access Nat

namespace Access
variable {α : Type}

def kind : Access α → AccessKind
  | .read _ _ => .read
  | .write _ _ _ => .write
  | .fetch _ _ => .fetch

def size : Access α → Nat
  | .read n _ => n
  | .write n _ _ => n
  | .fetch n _ => n

/-- Where the access goes: an offset for a `Transaction`, a physical address for a `BusAccess`. -/
def place : Access α → α
  | .read _ a => a
  | .write _ a _ => a
  | .fetch _ a => a

/-- The same access at another place. -/
def moveTo {β : Type} (b : β) : Access α → Access β
  | .read n _ => .read n b
  | .write n _ d => .write n b d
  | .fetch n _ => .fetch n b

end Access

/-- `R32(off)`: a 32-bit read (rule R16). An offset is a 32-bit word (rule R70); a number of `2^32` or more is reduced, which is the
model's choice and matters for the encoding of an ill-formed instruction only (log entry 13). -/
def Transaction.r32 (off : Nat) : Transaction := .read 4 (BitVec.ofNat 32 off)

/-- `W32(off, v)`: a 32-bit write (rule R16); the offset as in `r32` (log entry 13). -/
def Transaction.w32 (off : Nat) (v : Word) : Transaction := .write 4 (BitVec.ofNat 32 off) v

/-- What the block decodes: a host transaction, or the event `RAISE(id)` of a source line (rule R70). -/
inductive Request where
  | host (t : Transaction)
  | source (id : Nat)
  deriving DecidableEq, Repr

/-- What the outside world does to the block, one step each: a host access at a physical address, a source
event, or a reset of the block, which is an event of the platform (rule R12, rule R51, rule R200). No event
names the hart that issued it (rule R13). -/
inductive Event where
  | host (a : BusAccess)
  | source (id : Nat)
  | reset
  deriving DecidableEq, Repr

end Sys2Proof
end

