-- ==== Sys2Proof/Syntax.lean ====
section
/-!
DEFINITION. The block's instructions: one constructor per row of spec/opcode_table.json. The block executes
no instruction stream (spec/10_state.md rule R31); a row is a kind of bus transaction after decode, or the
one source event (spec/30_encoding.md section 1).
-/

namespace Sys2Proof

/-- One decoded step of the block. Register rows carry the indices the offset decodes to and, for a write,
the data word; the two fault rows carry the transaction that raised them. -/
inductive Instr where
  /-- PRIO_RD (rule R100): read the priority of source `id`. -/
  | prioRd (id : Nat)
  /-- PRIO_WR (rule R101): write the priority of source `id`. -/
  | prioWr (id : Nat) (data : Word)
  /-- EN_RD (rule R102): read enable word `w` of context `c`. -/
  | enRd (c w : Nat)
  /-- EN_WR (rule R103): write enable word `w` of context `c`. -/
  | enWr (c w : Nat) (data : Word)
  /-- THR_RD (rule R104): read the threshold of context `c`. -/
  | thrRd (c : Nat)
  /-- THR_WR (rule R105): write the threshold of context `c`. -/
  | thrWr (c : Nat) (data : Word)
  /-- CLAIM (rule R151): read the claim/complete register of context `c`. -/
  | claim (c : Nat)
  /-- COMPLETE (rule R152): write the claim/complete register of context `c`. -/
  | complete (c : Nat) (data : Word)
  /-- RAISE (rule R130): a request on source line `id`. -/
  | raise (id : Nat)
  /-- BAD_ACCESS (rule R72): a fetch, a width other than 4 bytes, or a misaligned offset. -/
  | badAccess (t : Transaction)
  /-- UNMAPPED (rule R72): an aligned 32-bit access to an offset that decodes to no register. -/
  | unmapped (t : Transaction)
  deriving DecidableEq, Repr

end Sys2Proof
end

