-- ==== Sys2Proof/WellFormed.lean ====
section
/-!
DEFINITION. Which configurations are admitted (spec/20_memory.md rule R60, with the parameter ranges of
spec/00_scope.md rule R5 to rule R8), and which instructions are well formed under one.
-/

namespace Sys2Proof

/-- The four sets of offsets that rule R60 asks to be pairwise disjoint. -/
inductive Bank where
  | priority
  | enable
  | threshold
  | claim
  deriving DecidableEq, Repr

/-- `words` consecutive 32-bit words from byte offset `start`, belonging to one of the four sets. -/
structure Region where
  bank : Bank
  start : Nat
  words : Nat
  deriving DecidableEq, Repr

/-- The first byte offset behind the region. -/
def Region.stop (r : Region) : Nat := r.start + 4 * r.words

/-- The regions of context `c`: its enable words, its threshold, its claim/complete register (rule R59). -/
def Config.contextRegions (cfg : Config) (c : Nat) : List Region :=
  [⟨.enable, cfg.enableBase c, cfg.numEnableWords⟩, ⟨.threshold, cfg.thrOff c, 1⟩, ⟨.claim, cfg.clmOff c, 1⟩]

/-- Every region of the map, the reserved priority word of ID 0 included (rule R59, rule R60). -/
def Config.regions (cfg : Config) : List Region :=
  ⟨.priority, cfg.priorityOffset, cfg.numSources + 1⟩ ::
    (List.range cfg.numHarts).flatMap cfg.contextRegions

/-- The parameter ranges of rule R5, rule R6 and rule R7. -/
def Config.rangesOk (cfg : Config) : Bool :=
  decide (1 ≤ cfg.numSources) && decide (1 ≤ cfg.maxPriority) && decide (cfg.maxPriority < 2 ^ 32)
    && decide (1 ≤ cfg.numHarts)

/-- Every layout parameter is a multiple of 4 (rule R8, rule R60). -/
def Config.layoutAligned (cfg : Config) : Bool :=
  [cfg.base, cfg.priorityOffset, cfg.enableOffset, cfg.enableStride, cfg.thresholdOffset, cfg.thresholdStride,
    cfg.claimOffset, cfg.claimStride].all (fun x => decide (x % 4 = 0))

/-- The strides leave room for one context's registers when there are several contexts (rule R60). -/
def Config.stridesOk (cfg : Config) : Bool :=
  decide (cfg.numHarts ≤ 1) ||
    (decide (4 * cfg.numEnableWords ≤ cfg.enableStride) && decide (4 ≤ cfg.thresholdStride)
      && decide (4 ≤ cfg.claimStride))

/-- Every register's offset lies in `0..2^32-4` (rule R60). -/
def Config.regionsInWindow (cfg : Config) : Bool :=
  cfg.regions.all (fun r => decide (r.stop ≤ 2 ^ 32))

/-- The four sets of offsets are pairwise disjoint (rule R60). -/
def Config.banksDisjoint (cfg : Config) : Bool :=
  cfg.regions.all (fun r => cfg.regions.all (fun q =>
    decide (r.bank = q.bank) || decide (r.stop ≤ q.start) || decide (q.stop ≤ r.start)))

/-- The configuration is admitted (rule R60); one that is not is refused: the model has no run for it. -/
def Config.wf (cfg : Config) : Bool :=
  cfg.rangesOk && cfg.layoutAligned && cfg.stridesOk && cfg.regionsInWindow && cfg.banksDisjoint

/-- Some register stands at byte offset `off`: the rows of the register map of rule R73, read off as a list
of offsets (the decoder of `Decode.lean` follows rule R72 instead). -/
def Config.mapped (cfg : Config) (off : Nat) : Bool :=
  (List.range' 1 cfg.numSources).any (fun id => off == cfg.prioOff id) ||
    (List.range cfg.numHarts).any (fun c =>
      (List.range cfg.numEnableWords).any (fun w => off == cfg.enwOff c w)
        || off == cfg.thrOff c || off == cfg.clmOff c)

/-- The width, alignment and kind checks of rule R72 fail on this transaction. -/
def Access.isBad (t : Transaction) : Bool :=
  decide (t.kind = .fetch) || decide (t.size ≠ 4) || decide (t.place.toNat % 4 ≠ 0)

/-- The instruction is one that a request decodes to under `cfg`: its indices are in the ranges of the table's
rows, and a fault row holds a transaction of its kind. -/
def Instr.wf (cfg : Config) : Instr → Bool
  | .prioRd id => cfg.isSource id
  | .prioWr id _ => cfg.isSource id
  | .enRd c w => cfg.isContext c && cfg.isEnableWord w
  | .enWr c w _ => cfg.isContext c && cfg.isEnableWord w
  | .thrRd c => cfg.isContext c
  | .thrWr c _ => cfg.isContext c
  | .claim c => cfg.isContext c
  | .complete c _ => cfg.isContext c
  | .raise id => cfg.isSource id
  | .badAccess t => t.isBad
  | .unmapped t => !t.isBad && !cfg.mapped t.place.toNat

end Sys2Proof
end

