-- ==== Sys2Proof/Decode.lean ====
section
/-!
DEFINITION. Address decode (spec/30_encoding.md rule R72), the encoder written from the register map
(rule R73), and the table-word decoder of the host. Decoding is total: every transaction decodes to exactly
one row, and the rows BAD_ACCESS and UNMAPPED reject by name.
-/

namespace Sys2Proof

/-- The decoded target of an admitted access (rule R72). -/
inductive Target where
  | prio (id : Nat)
  | enable (c w : Nat)
  | threshold (c : Nat)
  | claimComplete (c : Nat)
  deriving DecidableEq, Repr

/-- The body of rule R72's loop for context `c`, its three clauses in the order written. -/
def decodeContext (cfg : Config) (off c : Nat) : Option Target :=
  let e := cfg.enableOffset + c * cfg.enableStride
  if e ≤ off ∧ off < e + 4 * cfg.numEnableWords then some (.enable c ((off - e) / 4))
  else if off = cfg.thresholdOffset + c * cfg.thresholdStride then some (.threshold c)
  else if off = cfg.claimOffset + c * cfg.claimStride then some (.claimComplete c)
  else none

/-- Rule R72 after its width and alignment checks, on unbounded naturals; `none` is `Bad(Unmapped)`. -/
def decodeTarget (cfg : Config) (off : Nat) : Option Target :=
  if cfg.priorityOffset + 4 ≤ off ∧ off ≤ cfg.priorityOffset + 4 * cfg.numSources then
    some (.prio ((off - cfg.priorityOffset) / 4))
  else (List.range cfg.numHarts).findSome? (decodeContext cfg off)

/-- The row a 32-bit aligned read of a target is (rule R72, second table). -/
def readInstr : Target → Instr
  | .prio id => .prioRd id
  | .enable c w => .enRd c w
  | .threshold c => .thrRd c
  | .claimComplete c => .claim c

/-- The row a 32-bit aligned write of a target is (rule R72, second table). -/
def writeInstr (data : Word) : Target → Instr
  | .prio id => .prioWr id data
  | .enable c w => .enWr c w data
  | .threshold c => .thrWr c data
  | .claimComplete c => .complete c data

/-- Decode of a host transaction (rule R72): fetch, then width, then alignment, then the map. -/
def decodeTransaction (cfg : Config) (t : Transaction) : Instr :=
  match t with
  | .fetch _ _ => .badAccess t
  | .read size off =>
    if size ≠ 4 then .badAccess t
    else if off.toNat % 4 ≠ 0 then .badAccess t
    else match decodeTarget cfg off.toNat with
      | none => .unmapped t
      | some g => readInstr g
  | .write size off data =>
    if size ≠ 4 then .badAccess t
    else if off.toNat % 4 ≠ 0 then .badAccess t
    else match decodeTarget cfg off.toNat with
      | none => .unmapped t
      | some g => writeInstr data g

/-- Decode of a request: a source event is its own row (rule R70). -/
def decode (cfg : Config) : Request → Instr
  | .host t => decodeTransaction cfg t
  | .source id => .raise id

/-- The request that stands for an instruction, from the register map of rule R73. -/
def encode (cfg : Config) : Instr → Request
  | .prioRd id => .host (Transaction.r32 (cfg.prioOff id))
  | .prioWr id data => .host (Transaction.w32 (cfg.prioOff id) data)
  | .enRd c w => .host (Transaction.r32 (cfg.enwOff c w))
  | .enWr c w data => .host (Transaction.w32 (cfg.enwOff c w) data)
  | .thrRd c => .host (Transaction.r32 (cfg.thrOff c))
  | .thrWr c data => .host (Transaction.w32 (cfg.thrOff c) data)
  | .claim c => .host (Transaction.r32 (cfg.clmOff c))
  | .complete c data => .host (Transaction.w32 (cfg.clmOff c) data)
  | .raise id => .source id
  | .badAccess t => .host t
  | .unmapped t => .host t

/-- The instruction of a word of spec/opcode_table.json. The table's `match` and `mask` number the bits of the
OFFSET only, under the reference layout; the kind, the size and the data of the transaction are none of the
table's bits. They are taken as an aligned-width read without data (log entry 8), so a read row and the write
row of the same register have the same words, and this decoder answers the read. -/
def decodeTableWord (nbits w : Nat) : Option Instr :=
  if nbits ≤ 32 ∧ w < 2 ^ 32 then some (decode Config.reference (.host (Transaction.r32 w))) else none

end Sys2Proof
end

