-- ==== Sys2Proof/Machine/State.lean ====
section
/-!
DEFINITION. The state of the block (spec/10_state.md rule R20) as plain data, the reasons a step can stop, and
the state after reset (spec/70_reset_and_hazards.md rule R200). Four fields are the model's own and are marked
so: the configuration (a parameter of the step in the spec), the value returned to the host, the count of free
values used, and the schedule of events still to come.
-/

namespace Sys2Proof.Machine

/-- The state of a context's claim/complete handshake (rule R26). -/
inductive Handshake where
  | idle
  | inService (id : Nat)
  deriving DecidableEq, Repr

/-- A recorded fault with what rule R171 records for its code. -/
inductive FaultRecord where
  /-- Code 1: instruction fetch, width other than 32 bits, or offset not a multiple of 4. -/
  | badAccess (kind : AccessKind) (size : Nat) (off : Word)
  /-- Code 2: aligned 32-bit access to an offset that decodes to no register. -/
  | unmapped (kind : AccessKind) (off : Word)
  /-- Code 3: priority or threshold write of a value above `MAX_PRIORITY`. -/
  | illegalValue (off : Word) (data : Word)
  /-- Code 4: claim read of a context whose handshake is `InService`. -/
  | nestedClaim (c : Nat) (held : Nat)
  /-- Code 5: complete write whose value is not the ID the context holds. -/
  | badComplete (c : Nat) (data : Word) (hs : Handshake)
  deriving DecidableEq, Repr

/-- The code of a fault (rule R171). -/
def FaultRecord.code : FaultRecord → Nat
  | .badAccess _ _ _ => 1
  | .unmapped _ _ => 2
  | .illegalValue _ _ => 3
  | .nestedClaim _ _ => 4
  | .badComplete _ _ _ => 5

/-- The numeric code of the fault record, `None` being 0 (rule R171). -/
def faultCode : Option FaultRecord → Nat
  | none => 0
  | some r => r.code

/-- Why the machine stops with a fault. -/
inductive Fault where
  /-- Raised by every host transaction presented while a fault is recorded: the step is not taken and the run is
  over (rule R72, rule R170). Safe: the spec gives such a step no effect. -/
  | halted (r : FaultRecord)
  deriving DecidableEq, Repr

/-- Why the model has no step. -/
inductive Refusal where
  /-- Raised by the arm of an instruction that has no meaning yet (no arm is left so). Safe. -/
  | notModelled (mnemonic : String)
  /-- Raised by the step under a configuration that rule R60 does not admit: "A configuration that fails is
  refused: the model has no run for it". Safe. -/
  | malformedConfiguration
  /-- Raised by the step when the schedule holds no further event: the block has no step of its own (rule R12),
  and the finite run is at its end (rule R211). Safe. -/
  | noEvent
  /-- Raised by the step, and by a host sequence, for a host access at a physical address whose distance from `BASE` is no `UInt32`: it is
  no access the platform presents to the block (rule R51). Safe. -/
  | notRouted
  /-- Raised by RAISE of an ID outside `1..N`: there is no such source line (rule R131). Safe. -/
  | noSourceLine
  deriving DecidableEq, Repr

/-- The block. Lists indexed by source hold source `id` at position `id - 1`; lists indexed by context hold
context `c` at position `c`. All reads and writes go through the accessors of Ops.lean. -/
structure State where
  /-- The model's own: the configuration the step takes as a parameter (rule R20); no step changes it. -/
  cfg : Config
  /-- `prio[id]` (rule R21). -/
  prio : List Word
  /-- `en[c][id]` (rule R22): one list per context. -/
  en : List (List Bool)
  /-- `thr[c]` (rule R23). -/
  thr : List Word
  /-- `ip[id]` (rule R24). -/
  ip : List Bool
  /-- `insvc[id]` (rule R25). -/
  insvc : List Bool
  /-- `hs[c]` (rule R26). -/
  hs : List Handshake
  /-- `fault` (rule R27). -/
  fault : Option FaultRecord
  /-- The model's own: the value the last step returned to the host, `none` if it returned none (rule R16). -/
  result : Option Word
  /-- The model's own: how many free values have been used (rule R16); the next one is `Config.freeWord draws`. -/
  draws : Nat
  /-- The model's own: the events still to come, next first: a schedule of the free agents (rule R12). -/
  inputs : List Event
  deriving DecidableEq, Repr

/-- A free value in `0..MAX_PRIORITY` (rule R21, rule R23). -/
def drawPriority (cfg : Config) (k : Nat) : Word :=
  BitVec.ofNat 32 ((Config.freeWord k).toNat % (cfg.maxPriority + 1))

/-- How many free values a reset uses: one per priority, one per threshold, one per enable word. -/
def resetDraws (cfg : Config) : Nat :=
  cfg.numSources + cfg.numHarts + cfg.numHarts * cfg.numEnableWords

/-- The free value behind `prio[k+1]` at a reset whose first free value is `n`. -/
def resetPrio (cfg : Config) (n k : Nat) : Word := drawPriority cfg (n + k)

/-- The free value behind `thr[c]` at a reset whose first free value is `n`. -/
def resetThr (cfg : Config) (n c : Nat) : Word := drawPriority cfg (n + cfg.numSources + c)

/-- The free bit behind `en[c][id]` at a reset whose first free value is `n`. -/
def resetEn (cfg : Config) (n c id : Nat) : Bool :=
  (Config.freeWord (n + cfg.numSources + cfg.numHarts + c * cfg.numEnableWords + id / 32)).getLsbD (id % 32)

/-- The block after a reset (rule R200): `prio`, `en` and `thr` are free values, everything else is as stated.
`n` is the number of free values used before; the schedule is what is still to come. -/
def State.resetWith (cfg : Config) (n : Nat) (inputs : List Event) : State where
  cfg := cfg
  prio := (List.range cfg.numSources).map (resetPrio cfg n)
  en := (List.range cfg.numHarts).map (fun c => (List.range' 1 cfg.numSources).map (resetEn cfg n c))
  thr := (List.range cfg.numHarts).map (resetThr cfg n)
  ip := List.replicate cfg.numSources false
  insvc := List.replicate cfg.numSources false
  hs := List.replicate cfg.numHarts .idle
  fault := none
  result := none
  draws := n + resetDraws cfg
  inputs := inputs

/-- The machine right after reset: rule R200 under the reference configuration, with no event scheduled
(log entries 1, 3, 5). -/
def State.reset : State := State.resetWith Config.reference 0 []

end Sys2Proof.Machine
end

