-- ==== Sys2Proof/Machine/Ops.lean ====
section
/-!
DEFINITION. The named operations over the block's state: the accessors of its registers, their updates, taking a
fault (spec/60_exceptions.md rule R170) with its counterpart the reset (spec/70_reset_and_hazards.md rule R200,
the only return from a fault), and the guard every host transaction passes.
-/

namespace Sys2Proof.Machine

variable {α : Type}

/-- The entry of source `id` in a list indexed by source, `d` where there is none (ID 0, IDs above `N`). -/
def srcGet (d : α) (l : List α) : Nat → α
  | 0 => d
  | k + 1 => l.getD k d

/-- Writes the entry of source `id`; there is none to write for ID 0 and for IDs above `N`. -/
def srcSet (l : List α) (id : Nat) (v : α) : List α :=
  match id with
  | 0 => l
  | k + 1 => l.set k v

namespace State

/-- `prio[id]`. -/
def prioAt (s : State) (id : Nat) : Word := srcGet 0#32 s.prio id

/-- `en[c][id]`. -/
def enAt (s : State) (c id : Nat) : Bool := srcGet false (s.en.getD c []) id

/-- `thr[c]`. -/
def thrAt (s : State) (c : Nat) : Word := s.thr.getD c 0#32

/-- `ip[id]`. -/
def ipAt (s : State) (id : Nat) : Bool := srcGet false s.ip id

/-- `insvc[id]`. -/
def insvcAt (s : State) (id : Nat) : Bool := srcGet false s.insvc id

/-- `hs[c]`. -/
def hsAt (s : State) (c : Nat) : Handshake := s.hs.getD c .idle

/-- `prio[id] <- v`. -/
def setPrio (s : State) (id : Nat) (v : Word) : State := { s with prio := srcSet s.prio id v }

/-- `en[c][1..N] <- row`. -/
def setEnRow (s : State) (c : Nat) (row : List Bool) : State := { s with en := s.en.set c row }

/-- `thr[c] <- v`. -/
def setThr (s : State) (c : Nat) (v : Word) : State := { s with thr := s.thr.set c v }

/-- `ip[id] <- b`. -/
def setIp (s : State) (id : Nat) (b : Bool) : State := { s with ip := srcSet s.ip id b }

/-- `insvc[id] <- b`. -/
def setInsvc (s : State) (id : Nat) (b : Bool) : State := { s with insvc := srcSet s.insvc id b }

/-- `hs[c] <- h`. -/
def setHs (s : State) (c : Nat) (h : Handshake) : State := { s with hs := s.hs.set c h }

/-- The value the step returns to the host: `some v` for a read, `none` for a write and for an event. -/
def respond (s : State) (v : Option Word) : State := { s with result := v }

/-- One free value has been used (rule R16). -/
def countDraw (s : State) : State := { s with draws := s.draws + 1 }

/-- The schedule of events still to come. -/
def withInputs (s : State) (es : List Event) : State := { s with inputs := es }

/-- Taking a fault (rule R170): the record is written and nothing else; a faulting read returns no value. -/
def takeFault (s : State) (r : FaultRecord) : State := { s with fault := some r, result := none }

/-- The free value of this step's draw (rule R16). -/
def drawn (s : State) : Word := Config.freeWord s.draws

end State

/-- A reset of the block (rule R200): every element at its reset value, new free values; the events still to come
are the platform's. -/
def resetBlock (s : State) : State := State.resetWith s.cfg s.draws s.inputs

/-- The guard of every host transaction (rule R72, rule R170): while a fault is recorded the step is not taken. -/
def perform (s : State) (t : State) : Host.Outcome State Fault Refusal :=
  match s.fault with
  | none => .next t
  | some r => .fault (.halted r)

/-- The claim's writes (rule R151) once the encoder has picked `id`: nothing is marked for `id = 0`. -/
def State.markClaimed (s : State) (c id : Nat) : State :=
  if id = 0 then s
  else ((s.setIp id false).setInsvc id true).setHs c (.inService id)

/-- The complete's writes (rule R152): the in-service marker is retired. -/
def State.retire (s : State) (c id : Nat) : State :=
  (s.setInsvc id false).setHs c .idle

end Sys2Proof.Machine
end

