-- ==== Sys2Proof/Machine/AccessFault.lean ====
section
/-!
DEFINITION. BAD_ACCESS and UNMAPPED: the transactions whose whole effect is to take a fault
(spec/30_encoding.md rule R72, rule R78; spec/60_exceptions.md rule R171).
-/

namespace Sys2Proof.Machine

/-- BAD_ACCESS: a fetch, a width other than 32 bits or a misaligned offset takes `Fault(BadAccess)`. -/
def execBadAccess (t : Transaction) (s : State) : Host.Outcome State Fault Refusal :=
  perform s (s.takeFault (.badAccess t.kind t.size t.place))

/-- UNMAPPED: an aligned 32-bit access that decodes to no register takes `Fault(Unmapped)`. -/
def execUnmapped (t : Transaction) (s : State) : Host.Outcome State Fault Refusal :=
  perform s (s.takeFault (.unmapped t.kind t.place))

end Sys2Proof.Machine
end

