-- ==== Sys2Proof/Machine/Operands.lean ====
section
/-!
DEFINITION. Operand assembly (spec/30_encoding.md rule R74 to rule R77): the 32 bits of an enable word and the
sources they belong to, the offset word a fault records, and the offset an access at a physical address is
presented at (spec/20_memory.md rule R51).
-/

namespace Sys2Proof.Machine

/-- The number whose bit `b` is `f b` for `b < n` and 0 above. -/
def natOfBits (f : Nat → Bool) : Nat → Nat
  | 0 => 0
  | n + 1 => natOfBits f n ||| ((f n).toNat <<< n)

/-- The word whose bit `b` is `f b`. -/
def wordOfBits (f : Nat → Bool) : Word := BitVec.ofNat 32 (natOfBits f 32)

/-- The ID that bit `b` of enable word `w` belongs to (rule R76). -/
def enableId (w b : Nat) : Nat := 32 * w + b

/-- Bit `b` of enable word `w` of context `c` as a read returns it (rule R102): the stored bit where it names a
source, a free bit of `k` elsewhere. -/
def State.enWordBit (s : State) (c w : Nat) (k : Word) (b : Nat) : Bool :=
  if s.cfg.isSource (enableId w b) then s.enAt c (enableId w b) else k.getLsbD b

/-- Enable word `w` of context `c` as a read returns it, `k` being the free value (rule R102). -/
def State.enWord (s : State) (c w : Nat) (k : Word) : Word := wordOfBits (s.enWordBit c w k)

/-- The enable bit of source `id` after a write of `data` to enable word `w` (rule R103): source `id` belongs to
bit `id mod 32` of word `id / 32` (rule R76). -/
def State.enBitAfter (s : State) (c w : Nat) (data : Word) (id : Nat) : Bool :=
  if id / 32 = w then data.getLsbD (id % 32) else s.enAt c id

/-- A write of enable word `w` of context `c` (rule R103): bits that name no source are ignored. -/
def State.writeEnWord (s : State) (c w : Nat) (data : Word) : State :=
  s.setEnRow c ((List.range' 1 s.cfg.numSources).map (s.enBitAfter c w data))

/-- A byte offset as the word a fault records; reduced at `2^32`, which only an index no request decodes to reaches (log entry 13). -/
def offWord (off : Nat) : Word := BitVec.ofNat 32 off

/-- The offset at which an access at physical address `addr` is presented: `off = addr - BASE`, a `UInt32`
(rule R51). -/
def presentOff (cfg : Config) (addr : Nat) : Option Word :=
  if cfg.base ≤ addr ∧ addr - cfg.base < 2 ^ 32 then some (BitVec.ofNat 32 (addr - cfg.base)) else none

/-- The transaction a host access is presented to the block as (rule R51). -/
def present (cfg : Config) (a : BusAccess) : Option Transaction :=
  (presentOff cfg a.place).map (fun off => a.moveTo off)

end Sys2Proof.Machine
end

