-- ==== Sys2Proof/Machine/Enable.lean ====
section
/-!
DEFINITION. EN_RD and EN_WR (spec/40_masking_and_priority.md rule R102, rule R103).
-/

namespace Sys2Proof.Machine

/-- EN_RD (rule R102): bits that name no source are free on every read. -/
def execEnRd (c w : Nat) (s : State) : Host.Outcome State Fault Refusal :=
  perform s <|
    if s.cfg.isContext c && s.cfg.isEnableWord w then s.countDraw.respond (some (s.enWord c w s.drawn))
    else s.takeFault (.unmapped .read (offWord (s.cfg.enwOff c w)))

/-- EN_WR (rule R103): every bit of the word that names a source is written; no data value faults. -/
def execEnWr (c w : Nat) (data : Word) (s : State) : Host.Outcome State Fault Refusal :=
  perform s <|
    if s.cfg.isContext c && s.cfg.isEnableWord w then (s.writeEnWord c w data).respond none
    else s.takeFault (.unmapped .write (offWord (s.cfg.enwOff c w)))

end Sys2Proof.Machine
end

