-- ==== Sys2Proof/Machine/Arbiter.lean ====
section
/-!
DEFINITION. Eligibility, the candidate set and the priority encoder (spec/41_arbiter.md rule R132 to rule R134).
-/

namespace Sys2Proof.Machine

/-- `eligible(c, id)` (rule R132): pending, enabled for `c`, of priority above `c`'s threshold, unsigned. -/
def eligible (s : State) (c id : Nat) : Bool :=
  s.cfg.isSource id && s.ipAt id && s.enAt c id && decide ((s.thrAt c).toNat < (s.prioAt id).toNat)

/-- `E(c)` (rule R133), in rising order of ID. -/
def eligibles (s : State) (c : Nat) : List Nat :=
  (List.range' 1 s.cfg.numSources).filter (eligible s c)

/-- `top(c)` (rule R133); 0 when `E(c)` is empty. -/
def topPriority (s : State) (c : Nat) : Nat :=
  ((eligibles s c).map (fun id => (s.prioAt id).toNat)).foldl max 0

/-- `Cand(c)` (rule R133): the eligible sources of maximal priority, in rising order of ID. -/
def candidates (s : State) (c : Nat) : List Nat :=
  (eligibles s c).filter (fun id => decide ((s.prioAt id).toNat = topPriority s c))

/-- The element of a candidate list that the free value `k` selects; 0 for the empty list. -/
def choose (cands : List Nat) (k : Word) : Nat := cands.getD (k.toNat % cands.length) 0

/-- `pick(c, k)`, the priority encoder (rule R134). -/
def pick (s : State) (c : Nat) (k : Word) : Nat :=
  if (candidates s c).isEmpty then 0
  else match s.cfg.tieBreak with
    | .lowestId => (candidates s c).min?.getD 0
    | .any => choose (candidates s c) k

end Sys2Proof.Machine
end

