-- ==== Sys2Proof/Machine/Handshake.lean ====
section
/-!
DEFINITION. CLAIM and COMPLETE, the handshake state machine of a context (spec/42_claim_complete.md rule R150 to
rule R152).
-/

namespace Sys2Proof.Machine

/-- CLAIM (rule R151): arbitration and the marking of the picked source are one step (rule R153). -/
def execClaim (c : Nat) (s : State) : Host.Outcome State Fault Refusal :=
  perform s <|
    if s.cfg.isContext c then
      match s.hsAt c with
      | .inService x => s.takeFault (.nestedClaim c x)
      | .idle =>
        (s.markClaimed c (pick s c s.drawn)).countDraw.respond (some (BitVec.ofNat 32 (pick s c s.drawn)))
    else s.takeFault (.unmapped .read (offWord (s.cfg.clmOff c)))

/-- COMPLETE (rule R152): the value must be the ID the context holds; with `COMPLETE_REQUIRES_ENABLE` the complete
of a source not enabled for the context is ignored. -/
def execComplete (c : Nat) (data : Word) (s : State) : Host.Outcome State Fault Refusal :=
  perform s <|
    if s.cfg.isContext c then
      if s.hsAt c = .inService data.toNat then
        if s.cfg.completeRequiresEnable && !s.enAt c data.toNat then s.respond none
        else (s.retire c data.toNat).respond none
      else s.takeFault (.badComplete c data (s.hsAt c))
    else s.takeFault (.unmapped .write (offWord (s.cfg.clmOff c)))

end Sys2Proof.Machine
end

