-- ==== Sys2Proof/Machine/Priority.lean ====
section
/-!
DEFINITION. PRIO_RD and PRIO_WR (spec/40_masking_and_priority.md rule R100, rule R101).
-/

namespace Sys2Proof.Machine

/-- PRIO_RD (rule R100): `result <- prio[id]`; the word of an ID outside `1..N` is unmapped (rule R75). -/
def execPrioRd (id : Nat) (s : State) : Host.Outcome State Fault Refusal :=
  perform s <|
    if s.cfg.isSource id then s.respond (some (s.prioAt id))
    else s.takeFault (.unmapped .read (offWord (s.cfg.prioOff id)))

/-- PRIO_WR (rule R101): a value above `MAX_PRIORITY` faults, a legal one is stored. The map is tested first
(rule R172). -/
def execPrioWr (id : Nat) (data : Word) (s : State) : Host.Outcome State Fault Refusal :=
  perform s <|
    if s.cfg.isSource id then
      if s.cfg.maxPriority < data.toNat then s.takeFault (.illegalValue (offWord (s.cfg.prioOff id)) data)
      else (s.setPrio id data).respond none
    else s.takeFault (.unmapped .write (offWord (s.cfg.prioOff id)))

end Sys2Proof.Machine
end

