-- ==== Sys2Proof/Machine/Source.lean ====
section
/-!
DEFINITION. RAISE, the gateway of a source line (spec/41_arbiter.md rule R130, rule R131).
-/

namespace Sys2Proof.Machine

/-- RAISE (rule R130): the request makes the source pending unless it is pending or in service already. It happens
also while a fault is recorded. There is no source line outside `1..N` (rule R131). -/
def execRaise (id : Nat) (s : State) : Host.Outcome State Fault Refusal :=
  if s.cfg.isSource id then
    .next ((if !s.insvcAt id && !s.ipAt id then s.setIp id true else s).respond none)
  else .refused .noSourceLine

end Sys2Proof.Machine
end

