-- ==== Sys2Proof/Machine/Threshold.lean ====
section
/-!
DEFINITION. THR_RD and THR_WR (spec/40_masking_and_priority.md rule R104, rule R105).
-/

namespace Sys2Proof.Machine

/-- THR_RD (rule R104): `result <- thr[c]`. -/
def execThrRd (c : Nat) (s : State) : Host.Outcome State Fault Refusal :=
  perform s <|
    if s.cfg.isContext c then s.respond (some (s.thrAt c))
    else s.takeFault (.unmapped .read (offWord (s.cfg.thrOff c)))

/-- THR_WR (rule R105): a value above `MAX_PRIORITY` faults, a legal one is stored. -/
def execThrWr (c : Nat) (data : Word) (s : State) : Host.Outcome State Fault Refusal :=
  perform s <|
    if s.cfg.isContext c then
      if s.cfg.maxPriority < data.toNat then s.takeFault (.illegalValue (offWord (s.cfg.thrOff c)) data)
      else (s.setThr c data).respond none
    else s.takeFault (.unmapped .write (offWord (s.cfg.thrOff c)))

end Sys2Proof.Machine
end

