-- ==== Sys2Proof/Machine/Dispatch.lean ====
section
/-! DEFINITION. One arm per row of spec/opcode_table.json. -/

namespace Sys2Proof.Machine

def exec (i : Instr) (s : State) : Host.Outcome State Fault Refusal :=
  match i with
  | .prioRd id => Sys2Proof.Machine.execPrioRd id s
  | .prioWr id data => Sys2Proof.Machine.execPrioWr id data s
  | .enRd c w => Sys2Proof.Machine.execEnRd c w s
  | .enWr c w data => Sys2Proof.Machine.execEnWr c w data s
  | .thrRd c => Sys2Proof.Machine.execThrRd c s
  | .thrWr c data => Sys2Proof.Machine.execThrWr c data s
  | .claim c => Sys2Proof.Machine.execClaim c s
  | .complete c data => Sys2Proof.Machine.execComplete c data s
  | .raise id => Sys2Proof.Machine.execRaise id s
  | .badAccess t => Sys2Proof.Machine.execBadAccess t s
  | .unmapped t => Sys2Proof.Machine.execUnmapped t s

end Sys2Proof.Machine
end

