-- ==== Sys2Proof/Machine/Bus.lean ====
section
/-!
DEFINITION. How an event of the outside world reaches the block: a host access is presented at its offset
(spec/20_memory.md rule R51), decoded (spec/30_encoding.md rule R72) and performed; a source event is performed; a
reset resets the block (spec/70_reset_and_hazards.md rule R200).
-/

namespace Sys2Proof.Machine

/-- One request, decoded and performed as one atomic step (rule R11, rule R72). -/
def request (r : Request) (s : State) : Host.Outcome State Fault Refusal := exec (decode s.cfg r) s

/-- One event as one atomic step (rule R11, rule R12). A reset happens also while a fault is recorded (rule R170). -/
def runEvent (e : Event) (s : State) : Host.Outcome State Fault Refusal :=
  match e with
  | .host a =>
    match present s.cfg a with
    | none => .refused .notRouted
    | some t => request (.host t) s
  | .source id => request (.source id) s
  | .reset => .next (resetBlock s)

/-- The event a word of the opcode table stands for: an aligned-width read at the block's window (log entry 8). -/
def tableEvent (cfg : Config) (w : Nat) : Event := .host (.read 4 (cfg.base + w % 2 ^ 32))

end Sys2Proof.Machine
end

