-- ==== Sys2Proof/Machine/Step.lean ====
section
/-!
DEFINITION. One step: the next event of the schedule is performed (spec/20_memory.md rule R62). Which agent acts next
is the schedule's choice, so every interleaving of harts and sources is some schedule (spec/00_scope.md rule R12).
-/

namespace Sys2Proof.Machine

/-- One step of the block. A configuration that rule R60 does not admit has no run. -/
def step (s : State) : Host.Outcome State Fault Refusal :=
  if s.cfg.wf then
    match s.inputs with
    | [] => .refused .noEvent
    | e :: es => runEvent e (s.withInputs es)
  else .refused .malformedConfiguration

/-- The state with the transaction of an opcode-table word put first in the schedule, so that the very next step
performs it. -/
def State.withFetchWord (s : State) (_nbits w : Nat) : State :=
  s.withInputs (tableEvent s.cfg w :: s.inputs)

end Sys2Proof.Machine
end

