-- ==== Sys2Proof/Machine/Driver.lean ====
section
/-!
DEFINITION. The host sequences of spec/30_encoding.md rule R90 to rule R97: the driver's operations as transactions the
host issues one after another. They are no steps of the block; each is written here for the schedule in which no other
event comes between its transactions.
-/

namespace Sys2Proof.Machine

/-- First `o`, then `f` on the state it leaves; a stop stays a stop. -/
def andThen (o : Host.Outcome State Fault Refusal) (f : State → Host.Outcome State Fault Refusal) :
    Host.Outcome State Fault Refusal :=
  match o with
  | .next s => f s
  | .fault r => .fault r
  | .refused r => .refused r

/-- `R32 off` (rule R16, rule R80) as the host issues it, at physical address `BASE + off` (rule R51). The driver checks no bound
(rule R90), so `off` can be `2^32` or more, where no offset exists: the spec leaves this open, and the model refuses the access by
name, as the step does (log entry 13). -/
def readReg (off : Nat) (s : State) : Host.Outcome State Fault Refusal := runEvent (.host (.read 4 (s.cfg.base + off))) s

/-- `W32 off, v` (rule R16, rule R80), with the same choice for an offset of `2^32` or more (log entry 13). -/
def writeReg (off : Nat) (v : Word) (s : State) : Host.Outcome State Fault Refusal :=
  runEvent (.host (.write 4 (s.cfg.base + off) v)) s

/-- The value the last read returned to the host; 0 where there is none (then a fault is recorded, and no further
transaction is performed). -/
def State.value (s : State) : Word := s.result.getD 0#32

/-- The mask of source `id` in its enable word (rule R90). -/
def enableMask (id : Nat) : Word := 1#32 <<< (id % 32)

/-- `ENABLE(c, id)` (rule R90). No bound on `id` or `c` is checked here; what a word without an offset gives is `readReg`'s choice. -/
def driverEnable (c id : Nat) (s : State) : Host.Outcome State Fault Refusal :=
  andThen (readReg (s.cfg.enwOff c (id / 32)) s)
    (fun t => writeReg (s.cfg.enwOff c (id / 32)) (t.value ||| enableMask id) t)

/-- `DISABLE(c, id)` (rule R91). -/
def driverDisable (c id : Nat) (s : State) : Host.Outcome State Fault Refusal :=
  andThen (readReg (s.cfg.enwOff c (id / 32)) s)
    (fun t => writeReg (s.cfg.enwOff c (id / 32)) (t.value &&& ~~~(enableMask id)) t)

/-- `SET_PRIORITY(id, p)` (rule R92): outside `1..N` the driver aborts before any transaction. -/
def driverSetPriority (id : Nat) (p : Word) (s : State) : Host.Outcome State Fault Refusal :=
  if s.cfg.isSource id then writeReg (s.cfg.prioOff id) p s else .next s

/-- `SET_THRESHOLD(c, t)` (rule R93). -/
def driverSetThreshold (c : Nat) (v : Word) (s : State) : Host.Outcome State Fault Refusal :=
  writeReg (s.cfg.thrOff c) v s

/-- `CLAIM(c)` (rule R94). -/
def driverClaim (c : Nat) (s : State) : Host.Outcome State Fault Refusal := readReg (s.cfg.clmOff c) s

/-- `COMPLETE(c, id)` (rule R94). -/
def driverComplete (c : Nat) (id : Word) (s : State) : Host.Outcome State Fault Refusal :=
  writeReg (s.cfg.clmOff c) id s

/-- The loop of `INIT(c)` over a list of IDs (rule R95). -/
def driverInitSources (c : Nat) : List Nat → State → Host.Outcome State Fault Refusal
  | [], s => .next s
  | id :: ids, s =>
    andThen (andThen (driverDisable c id s) (driverSetPriority id 0#32)) (driverInitSources c ids)

/-- `INIT(c)` (rule R95). -/
def driverInit (c : Nat) (s : State) : Host.Outcome State Fault Refusal :=
  andThen (driverInitSources c (List.range' 1 s.cfg.numSources) s) (driverSetThreshold c 0#32)

/-- `DISPATCH(c)` (rule R96): claim, callback, complete. `registered id` says whether the host has a callback for
`id`; without one the driver aborts and no complete follows. -/
def driverDispatch (registered : Nat → Bool) (c : Nat) (s : State) : Host.Outcome State Fault Refusal :=
  andThen (driverClaim c s) (fun t =>
    if t.value = 0#32 then .next t
    else if registered t.value.toNat then driverComplete c t.value t
    else .next t)

/-- `SET_CALLBACK(id, handler)` (rule R97): no transaction, so the block is left as it is. -/
def driverSetCallback (_id : Nat) (s : State) : Host.Outcome State Fault Refusal := .next s

end Sys2Proof.Machine
end

