-- ==== Sys2Proof/Machine/Flags.lean ====
section
/-!
DEFINITION. The block has no status flags or condition codes (spec/10_state.md rule R32). Its one status signal is
the notification output of each context (spec/41_arbiter.md rule R136), a function of the state.
-/

namespace Sys2Proof.Machine

/-- `irq_out[c]`: `E(c)` is nonempty (rule R136). -/
def irqOut (s : State) (c : Nat) : Bool := !(eligibles s c).isEmpty

end Sys2Proof.Machine
end

