-- ==== Sys2Proof/Safety.lean ====
section
/-!
DEFINITION. What statements mean by a run (spec/70_reset_and_hazards.md rule R211), by a clean state, and the invariant of
spec/10_state.md rule R28 with the shape of the state it needs.
-/

namespace Sys2Proof.Machine

/-- A run is clean when no fault is recorded at its end (rule R211). -/
def State.clean (s : State) : Prop := s.fault = none

/-- `t` is reached from `s` by finitely many steps, none of which stops. -/
inductive Reaches (s : State) : State → Prop where
  | here : Reaches s s
  | step {t u : State} (run : Reaches s t) (last : Machine.step t = .next u) : Reaches s u

/-- The lists of the state have one entry per source or context (rule R20). -/
structure State.Shape (s : State) : Prop where
  prio_length : s.prio.length = s.cfg.numSources
  ip_length : s.ip.length = s.cfg.numSources
  insvc_length : s.insvc.length = s.cfg.numSources
  en_length : s.en.length = s.cfg.numHarts
  row_length : ∀ row ∈ s.en, row.length = s.cfg.numSources
  thr_length : s.thr.length = s.cfg.numHarts
  hs_length : s.hs.length = s.cfg.numHarts

/-- A handshake holds no ID outside `1..N` (rule R26). -/
def Handshake.legal (cfg : Config) : Handshake → Bool
  | .idle => true
  | .inService id => cfg.isSource id

/-- Rule R28, on a state of the right shape; with it, that a handshake holds a source (rule R26). -/
structure State.Inv (s : State) : Prop where
  shape : s.Shape
  /-- R28.1 -/
  pending_not_inService : ∀ id ≤ s.cfg.numSources, s.ipAt id = true → s.insvcAt id = false
  /-- R28.2, from left to right -/
  inService_held : ∀ id ≤ s.cfg.numSources, s.insvcAt id = true →
    ∃ c < s.cfg.numHarts, s.hsAt c = .inService id
  /-- R28.2, from right to left -/
  held_inService : ∀ c < s.cfg.numHarts, ∀ id ≤ s.cfg.numSources, s.hsAt c = .inService id → s.insvcAt id = true
  /-- R28.3 -/
  held_once : ∀ c < s.cfg.numHarts, ∀ c' < s.cfg.numHarts, ∀ id ≤ s.cfg.numSources,
    s.hsAt c = .inService id → s.hsAt c' = .inService id → c = c'
  /-- R28.4 -/
  prio_legal : ∀ id ≤ s.cfg.numSources, (s.prioAt id).toNat ≤ s.cfg.maxPriority
  /-- R28.4 -/
  thr_legal : ∀ c < s.cfg.numHarts, (s.thrAt c).toNat ≤ s.cfg.maxPriority
  /-- R26: `InService(id)` with `id` in `1..N` -/
  held_source : ∀ h ∈ s.hs, h.legal s.cfg = true

/-- The priority, enable and threshold registers are as they were. -/
def SameRegisters (s t : State) : Prop := t.prio = s.prio ∧ t.en = s.en ∧ t.thr = s.thr

/-- Pending bits, in-service bits and handshakes are as they were. -/
def SameInterruptState (s t : State) : Prop := t.ip = s.ip ∧ t.insvc = s.insvc ∧ t.hs = s.hs

/-- The configuration and the schedule of events are as they were. -/
def SameSetting (s t : State) : Prop := t.cfg = s.cfg ∧ t.inputs = s.inputs

/-- `t` is `s` after taking the fault `r` (rule R170): the record is written, no value is returned, and nothing else
is changed. -/
def TookFault (s t : State) (r : FaultRecord) : Prop :=
  t.fault = some r ∧ t.result = none ∧ SameRegisters s t ∧ SameInterruptState s t ∧ SameSetting s t ∧ t.draws = s.draws

/-- `id` is an eligible source of maximal priority for `c`: a member of `Cand(c)` (rule R133). -/
def IsCandidate (s : State) (c id : Nat) : Prop :=
  eligible s c id = true ∧ ∀ j, eligible s c j = true → (s.prioAt j).toNat ≤ (s.prioAt id).toNat

/-- The next event of the schedule is the instruction `i`: a host access presented at an offset that decodes to `i`, or
the source event that `i` is. -/
def NextIs (s : State) (i : Instr) : Prop :=
  (∃ a es r, s.inputs = .host a :: es ∧ present s.cfg a = some r ∧ decode s.cfg (.host r) = i) ∨
  (∃ id es, s.inputs = .source id :: es ∧ i = .raise id)

/-- The next event of the schedule is a reset of the block. -/
def NextIsReset (s : State) : Prop := ∃ es, s.inputs = .reset :: es

/-- The event `e` is a complete of `id` to context `c`. -/
def IsCompleteOf (cfg : Config) (c id : Nat) (e : Event) : Prop :=
  ∃ a r data, e = .host a ∧ present cfg a = some r ∧ decode cfg (.host r) = .complete c data ∧ data.toNat = id

/-- The context an instruction is addressed to; RAISE, the priority rows and the fault rows address none. -/
def addressedContext : Instr → Option Nat
  | .enRd c _ => some c
  | .enWr c _ _ => some c
  | .thrRd c => some c
  | .thrWr c _ => some c
  | .claim c => some c
  | .complete c _ => some c
  | .prioRd _ => none
  | .prioWr _ _ => none
  | .raise _ => none
  | .badAccess _ => none
  | .unmapped _ => none

end Sys2Proof.Machine
end

