-- ==== Sys2Proof/Certificates/Slice0/Obligations.lean ====
section
/-!
DEFINITION. The statements for the provers. Each is a Prop about the model; its docstring says which rule of spec/ it
formalises. `s.drawn` and `Config.freeWord` are free values without a body: a statement that mentions one holds whatever
the value is. Where a statement speaks of an admitted configuration, the premise is `cfg.wf = true` (rule R60); of a state
whose lists have one entry per source or context, `s.Shape`; of a state of the invariant of rule R28, `s.Inv`.
The fields `cfg`, `draws`, `result` and `inputs` are the model's own (log entries 1, 2, 6 and 5): a clause about one of them
says how the model carries the spec's parameter, draw, returned value or schedule, and cites no rule.
-/

open Sys2Proof Sys2Proof.Machine

/-! ## Decode, encode and the step -/

/-- The reference words of the spec's test vectors (95_test_vectors.md section 2 and the offset table) decode to the rows
they stand for, under the reference layout. -/
def Obligations.ReferenceWordsDecode : Prop :=
  decode Config.reference (.host (.read 4 0x00000008#32)) = .prioRd 2 ∧
  decode Config.reference (.host (.write 4 0x00000010#32 7#32)) = .prioWr 4 7#32 ∧
  decode Config.reference (.host (.read 4 0x00002000#32)) = .enRd 0 0 ∧
  decode Config.reference (.host (.write 4 0x00002080#32 8#32)) = .enWr 1 0 8#32 ∧
  decode Config.reference (.host (.read 4 0x00200000#32)) = .thrRd 0 ∧
  decode Config.reference (.host (.write 4 0x00201000#32 3#32)) = .thrWr 1 3#32 ∧
  decode Config.reference (.host (.read 4 0x00200004#32)) = .claim 0 ∧
  decode Config.reference (.host (.write 4 0x00201004#32 4#32)) = .complete 1 4#32 ∧
  decode Config.reference (.source 3) = .raise 3 ∧
  decode Config.reference (.host (.fetch 4 0x00000004#32)) = .badAccess (.fetch 4 0x00000004#32) ∧
  decode Config.reference (.host (.read 1 0x00000004#32)) = .badAccess (.read 1 0x00000004#32) ∧
  decode Config.reference (.host (.read 4 0x00000006#32)) = .badAccess (.read 4 0x00000006#32) ∧
  decode Config.reference (.host (.read 4 0x00001000#32)) = .unmapped (.read 4 0x00001000#32)

/-- Under an admitted configuration a step performs the next event of the schedule on the state whose schedule is the rest.
A host access at `BASE + off` runs the instruction its transaction decodes to (rule R51, rule R72), a source event is RAISE, a
reset is the reset of rule R200. A host access that is presented at no 32-bit offset and an empty schedule are refused by name. -/
def Obligations.StepRunsTheDecodedInstruction : Prop :=
  (∀ (s : State) (t : Transaction) (es : List Event), s.cfg.wf = true →
    s.inputs = .host (t.moveTo (s.cfg.base + t.place.toNat)) :: es →
    step s = exec (decode s.cfg (.host t)) (s.withInputs es)) ∧
  (∀ (s : State) (id : Nat) (es : List Event), s.cfg.wf = true → s.inputs = .source id :: es →
    step s = exec (.raise id) (s.withInputs es)) ∧
  (∀ (s : State) (es : List Event), s.cfg.wf = true → s.inputs = .reset :: es →
    step s = .next (State.resetWith s.cfg s.draws es)) ∧
  (∀ (s : State) (a : BusAccess) (es : List Event), s.cfg.wf = true → s.inputs = .host a :: es →
    (a.place < s.cfg.base ∨ s.cfg.base + 2 ^ 32 ≤ a.place) → step s = .refused .notRouted) ∧
  (∀ s : State, s.cfg.wf = true → s.inputs = [] → step s = .refused .noEvent)

/-- Rule R60: exactly the configurations with aligned layout parameters, large enough strides, and pairwise disjoint sets of
register offsets in `0..2^32-4` are admitted (with the parameter ranges of rule R5 to rule R7), and a configuration that is not
admitted has no run: every step is refused. The sets are the priority words of the IDs `0..N`, the enable words, the
thresholds and the claim/complete registers. That the condition on `NUM_HARTS` covers all three strides is the model's reading
(log entry 9). -/
def Obligations.MalformedConfigurationIsRefused : Prop :=
  (∀ cfg : Config,
    (cfg.wf = true ↔
      (1 ≤ cfg.numSources ∧ 1 ≤ cfg.maxPriority ∧ cfg.maxPriority ≤ 2 ^ 32 - 1 ∧ 1 ≤ cfg.numHarts) ∧
      (4 ∣ cfg.base ∧ 4 ∣ cfg.priorityOffset ∧ 4 ∣ cfg.enableOffset ∧ 4 ∣ cfg.enableStride ∧ 4 ∣ cfg.thresholdOffset ∧
        4 ∣ cfg.thresholdStride ∧ 4 ∣ cfg.claimOffset ∧ 4 ∣ cfg.claimStride) ∧
      (1 < cfg.numHarts → 4 * cfg.numEnableWords ≤ cfg.enableStride ∧ 4 ≤ cfg.thresholdStride ∧ 4 ≤ cfg.claimStride) ∧
      (∀ id ≤ cfg.numSources, ∀ c < cfg.numHarts, ∀ w < cfg.numEnableWords, cfg.prioOff id ≠ cfg.enwOff c w) ∧
      (∀ id ≤ cfg.numSources, ∀ c < cfg.numHarts, cfg.prioOff id ≠ cfg.thrOff c ∧ cfg.prioOff id ≠ cfg.clmOff c) ∧
      (∀ c < cfg.numHarts, ∀ w < cfg.numEnableWords, ∀ k < cfg.numHarts,
        cfg.enwOff c w ≠ cfg.thrOff k ∧ cfg.enwOff c w ≠ cfg.clmOff k) ∧
      (∀ c < cfg.numHarts, ∀ k < cfg.numHarts, cfg.thrOff c ≠ cfg.clmOff k) ∧
      (∀ id ≤ cfg.numSources, cfg.prioOff id ≤ 2 ^ 32 - 4) ∧
      (∀ c < cfg.numHarts, (∀ w < cfg.numEnableWords, cfg.enwOff c w ≤ 2 ^ 32 - 4) ∧
        cfg.thrOff c ≤ 2 ^ 32 - 4 ∧ cfg.clmOff c ≤ 2 ^ 32 - 4))) ∧
  (∀ s : State, s.cfg.wf = false ↔ step s = .refused .malformedConfiguration)

/-- Rule R73: under an admitted configuration every register of the map is read and written at its offset, and the reserved
word for ID 0 is unmapped. -/
def Obligations.RegisterMapDecodes : Prop :=
  ∀ (cfg : Config) (data : Word), cfg.wf = true →
    (∀ id, 1 ≤ id → id ≤ cfg.numSources →
      decode cfg (.host (Transaction.r32 (cfg.priorityOffset + 4 * id))) = .prioRd id ∧
      decode cfg (.host (Transaction.w32 (cfg.priorityOffset + 4 * id) data)) = .prioWr id data) ∧
    (∀ c < cfg.numHarts, ∀ w < cfg.numEnableWords,
      decode cfg (.host (Transaction.r32 (cfg.enableOffset + c * cfg.enableStride + 4 * w))) = .enRd c w ∧
      decode cfg (.host (Transaction.w32 (cfg.enableOffset + c * cfg.enableStride + 4 * w) data)) = .enWr c w data) ∧
    (∀ c < cfg.numHarts,
      decode cfg (.host (Transaction.r32 (cfg.thresholdOffset + c * cfg.thresholdStride))) = .thrRd c ∧
      decode cfg (.host (Transaction.w32 (cfg.thresholdOffset + c * cfg.thresholdStride) data)) = .thrWr c data ∧
      decode cfg (.host (Transaction.r32 (cfg.claimOffset + c * cfg.claimStride))) = .claim c ∧
      decode cfg (.host (Transaction.w32 (cfg.claimOffset + c * cfg.claimStride) data)) = .complete c data) ∧
    decode cfg (.host (Transaction.r32 cfg.priorityOffset)) = .unmapped (Transaction.r32 cfg.priorityOffset) ∧
    decode cfg (.host (Transaction.w32 cfg.priorityOffset data)) = .unmapped (Transaction.w32 cfg.priorityOffset data)

/-- Decode and encode agree, for every well-formed instruction of every row, with every operand at every value the encoding
admits, under every admitted configuration. -/
def Obligations.DecodeOfEncode : Prop :=
  ∀ (cfg : Config) (i : Instr), cfg.wf = true → i.wf cfg = true → decode cfg (encode cfg i) = i

/-- Every transaction, and every event of a source line that exists, decodes to exactly one well-formed instruction
(30_encoding.md section 2): the request is the encoding of what it decodes to, so no two requests decode to the same one. -/
def Obligations.EveryRequestHasOneMeaning : Prop :=
  ∀ (cfg : Config) (r : Request), cfg.wf = true → (∀ id, r = .source id → 1 ≤ id ∧ id ≤ cfg.numSources) →
    (decode cfg r).wf cfg = true ∧ encode cfg (decode cfg r) = r

/-- The numeric decode table of 30_encoding.md section 4 (the rule marked there as derived and from general knowledge): match,
mask and fields of an offset under the reference layout. -/
def Sys2Proof.numericTarget (n h : Nat) (off : Word) : Option Target :=
  let id := (off.extractLsb' 2 10).toNat
  let c := (off.extractLsb' 7 6).toNat
  let w := (off.extractLsb' 2 5).toNat
  let k := (off.extractLsb' 12 6).toNat
  if off &&& 0xFFFFF003#32 = 0x00000000#32 ∧ 1 ≤ id ∧ id ≤ n then some (.prio id)
  else if off &&& 0xFFFFE003#32 = 0x00002000#32 ∧ c < h ∧ w < n / 32 + 1 then some (.enable c w)
  else if off &&& 0xFFFC0FFF#32 = 0x00200000#32 ∧ k < h then some (.threshold k)
  else if off &&& 0xFFFC0FFF#32 = 0x00200004#32 ∧ k < h then some (.claimComplete k)
  else none

/-- Under the reference layout with `N <= 1023` and `NUM_HARTS <= 64` the decode function is the numeric table of
30_encoding.md section 4. -/
def Obligations.NumericDecodeAgrees : Prop :=
  ∀ (n h : Nat) (off : Word), 1 ≤ n → n ≤ 1023 → 1 ≤ h → h ≤ 64 → off.toNat % 4 = 0 →
    decodeTarget (Config.referenceLayout n h) off.toNat = numericTarget n h off

/-! ## Priority, enable and threshold registers -/

/-- PRIO_RD (40_masking_and_priority.md section 1): the register at `PRIORITY_OFFSET + 4*id` is returned and no state is
written; the words of ID 0 and of IDs above `N`, where no other register stands, fault; a read directly after a legal write of
the same register returns the written value, and a read directly after reset returns the free value of the reset (log entry 3). -/
def Obligations.PriorityReadReturnsTheRegister : Prop :=
  (∀ (s : State) (id : Nat), s.fault = none → 1 ≤ id → id ≤ s.cfg.numSources →
    (∃ t, exec (.prioRd id) s = .next t ∧ t.result = some (s.prioAt id) ∧ t.fault = none ∧ SameRegisters s t ∧
      SameInterruptState s t ∧ SameSetting s t ∧ t.draws = s.draws) ∧
    (s.cfg.wf = true → decode s.cfg (.host (Transaction.r32 (s.cfg.priorityOffset + 4 * id))) = .prioRd id)) ∧
  (∀ (s : State) (id : Nat), s.fault = none → s.cfg.wf = true → (id = 0 ∨ s.cfg.numSources < id) → s.cfg.prioOff id < 2 ^ 32 →
    s.cfg.mapped (s.cfg.prioOff id) = false →
    ∃ t, request (.host (Transaction.r32 (s.cfg.prioOff id))) s = .next t ∧
      TookFault s t (.unmapped .read (offWord (s.cfg.prioOff id)))) ∧
  (∀ (s : State) (id : Nat) (p : Word), s.fault = none → s.Shape → 1 ≤ id → id ≤ s.cfg.numSources →
    p.toNat ≤ s.cfg.maxPriority →
    ∃ t u, exec (.prioWr id p) s = .next t ∧ exec (.prioRd id) t = .next u ∧ u.result = some p) ∧
  (∀ (cfg : Config) (n : Nat) (es : List Event) (id : Nat), 1 ≤ id → id ≤ cfg.numSources →
    ∃ t, exec (.prioRd id) (State.resetWith cfg n es) = .next t ∧ t.result = some (drawPriority cfg (n + (id - 1))))

/-- PRIO_WR (rule R101): a legal value becomes `prio[id]`, seen by the arbiter of every context at once, with everything else
unchanged; a value above `MAX_PRIORITY` is `Fault(IllegalValue)`; the words of ID 0 and of IDs above `N`, where no other
register stands (none does at the word of ID 0), are `Fault(Unmapped)`; with value 0 the source is eligible for no context. -/
def Obligations.PriorityWriteStoresLegalValues : Prop :=
  (∀ (s : State) (id : Nat) (p : Word), s.fault = none → s.Shape → 1 ≤ id → id ≤ s.cfg.numSources →
    (s.cfg.wf = true → decode s.cfg (.host (Transaction.w32 (s.cfg.priorityOffset + 4 * id) p)) = .prioWr id p) ∧
    (p.toNat ≤ s.cfg.maxPriority →
      ∃ t, exec (.prioWr id p) s = .next t ∧ t.prioAt id = p ∧ (∀ j, j ≠ id → t.prioAt j = s.prioAt j) ∧
        t.en = s.en ∧ t.thr = s.thr ∧ SameInterruptState s t ∧ t.fault = none ∧ t.result = none ∧ SameSetting s t ∧
        t.draws = s.draws ∧
        (∀ c, eligible t c id = true ↔ s.ipAt id = true ∧ s.enAt c id = true ∧ (s.thrAt c).toNat < p.toNat) ∧
        (p = 0#32 → ∀ c, eligible t c id = false)) ∧
    (s.cfg.maxPriority < p.toNat →
      ∃ t, exec (.prioWr id p) s = .next t ∧ TookFault s t (.illegalValue (offWord (s.cfg.prioOff id)) p))) ∧
  (∀ (s : State) (id : Nat) (p : Word), s.fault = none → s.cfg.wf = true → (id = 0 ∨ s.cfg.numSources < id) →
    s.cfg.prioOff id < 2 ^ 32 → s.cfg.mapped (s.cfg.prioOff id) = false →
    ∃ t, request (.host (Transaction.w32 (s.cfg.prioOff id) p)) s = .next t ∧
      TookFault s t (.unmapped .write (offWord (s.cfg.prioOff id)))) ∧
  (∀ cfg : Config, cfg.wf = true → cfg.prioOff 0 < 2 ^ 32 ∧ cfg.mapped (cfg.prioOff 0) = false)

/-- EN_RD (rule R102): each bit that names a source is that source's enable bit, every other bit is a bit of the free value of
this read, and the next use is another free value (the count is the model's own, log entry 2); no state of the block is
written. -/
def Obligations.EnableReadReturnsStoredAndFreeBits : Prop :=
  ∀ (s : State) (c w : Nat), s.fault = none → c < s.cfg.numHarts → w < s.cfg.numEnableWords →
    (∃ t v, exec (.enRd c w) s = .next t ∧ t.result = some v ∧
      (∀ b < 32, v.getLsbD b =
        if 1 ≤ 32 * w + b ∧ 32 * w + b ≤ s.cfg.numSources then s.enAt c (32 * w + b) else s.drawn.getLsbD b) ∧
      t.draws = s.draws + 1 ∧ t.fault = none ∧ SameRegisters s t ∧ SameInterruptState s t ∧ SameSetting s t) ∧
    (s.cfg.wf = true →
      decode s.cfg (.host (Transaction.r32 (s.cfg.enableOffset + c * s.cfg.enableStride + 4 * w))) = .enRd c w)

/-- EN_WR (rule R103): every bit of the word that names a source is written, no other enable bit of this or of any other
context changes, bits that name no source are ignored, no data value faults, and pending bits, in-service bits and handshakes
stay. -/
def Obligations.EnableWriteStoresNamedBits : Prop :=
  ∀ (s : State) (c w : Nat) (data : Word), s.fault = none → s.Shape → c < s.cfg.numHarts → w < s.cfg.numEnableWords →
    (s.cfg.wf = true →
      decode s.cfg (.host (Transaction.w32 (s.cfg.enableOffset + c * s.cfg.enableStride + 4 * w) data)) = .enWr c w data) ∧
    ∃ t, exec (.enWr c w data) s = .next t ∧
      (∀ b < 32, 1 ≤ 32 * w + b → 32 * w + b ≤ s.cfg.numSources → t.enAt c (32 * w + b) = data.getLsbD b) ∧
      (∀ id, id / 32 ≠ w → t.enAt c id = s.enAt c id) ∧
      (∀ k id, k ≠ c → t.enAt k id = s.enAt k id) ∧
      (∀ data' : Word, (∀ b < 32, 1 ≤ 32 * w + b → 32 * w + b ≤ s.cfg.numSources → data'.getLsbD b = data.getLsbD b) →
        exec (.enWr c w data') s = .next t) ∧
      t.prio = s.prio ∧ t.thr = s.thr ∧ SameInterruptState s t ∧ t.fault = none ∧ t.result = none ∧ SameSetting s t ∧
      t.draws = s.draws

/-- THR_RD (40_masking_and_priority.md section 3): the threshold of the context is returned and no state is written; directly after
reset it is the free value of the reset (log entry 3). -/
def Obligations.ThresholdReadReturnsTheRegister : Prop :=
  (∀ (s : State) (c : Nat), s.fault = none → c < s.cfg.numHarts →
    (∃ t, exec (.thrRd c) s = .next t ∧ t.result = some (s.thrAt c) ∧ t.fault = none ∧ SameRegisters s t ∧
      SameInterruptState s t ∧ SameSetting s t ∧ t.draws = s.draws) ∧
    (s.cfg.wf = true →
      decode s.cfg (.host (Transaction.r32 (s.cfg.thresholdOffset + c * s.cfg.thresholdStride))) = .thrRd c)) ∧
  (∀ (s : State) (c : Nat) (v : Word), s.fault = none → s.Shape → c < s.cfg.numHarts → v.toNat ≤ s.cfg.maxPriority →
    ∃ t u, exec (.thrWr c v) s = .next t ∧ exec (.thrRd c) t = .next u ∧ u.result = some v) ∧
  (∀ (cfg : Config) (n : Nat) (es : List Event) (c : Nat), c < cfg.numHarts →
    ∃ t, exec (.thrRd c) (State.resetWith cfg n es) = .next t ∧
      t.result = some (drawPriority cfg (n + cfg.numSources + c)))

/-- THR_WR (rule R105): a legal value becomes `thr[c]` and nothing else changes; a value above `MAX_PRIORITY` is
`Fault(IllegalValue)`. With 0 every pending enabled source of nonzero priority is eligible, with `MAX_PRIORITY` none is (in
states of the invariant); the new value decides eligibility at the next step, in particular a lower threshold makes a source
above it eligible again. -/
def Obligations.ThresholdWriteStoresLegalValues : Prop :=
  ∀ (s : State) (c : Nat) (v : Word), s.fault = none → s.Inv → c < s.cfg.numHarts →
    (s.cfg.wf = true →
      decode s.cfg (.host (Transaction.w32 (s.cfg.thresholdOffset + c * s.cfg.thresholdStride) v)) = .thrWr c v) ∧
    (v.toNat ≤ s.cfg.maxPriority →
      ∃ t, exec (.thrWr c v) s = .next t ∧ t.thrAt c = v ∧ (∀ k, k ≠ c → t.thrAt k = s.thrAt k) ∧
        t.prio = s.prio ∧ t.en = s.en ∧ SameInterruptState s t ∧ t.fault = none ∧ t.result = none ∧ SameSetting s t ∧
        t.draws = s.draws ∧
        (∀ id, 1 ≤ id → id ≤ s.cfg.numSources →
          (eligible t c id = true ↔ s.ipAt id = true ∧ s.enAt c id = true ∧ v.toNat < (s.prioAt id).toNat)) ∧
        (v = 0#32 → ∀ id, 1 ≤ id → id ≤ s.cfg.numSources → s.ipAt id = true → s.enAt c id = true → s.prioAt id ≠ 0#32 →
          eligible t c id = true) ∧
        (v.toNat = s.cfg.maxPriority → ∀ id, eligible t c id = false)) ∧
    (s.cfg.maxPriority < v.toNat →
      ∃ t, exec (.thrWr c v) s = .next t ∧ TookFault s t (.illegalValue (offWord (s.cfg.thrOff c)) v))

/-- Rule R106: the arbiter and the notification of the state after a configuration write use the written value. -/
def Obligations.ArbiterSeesWritesAtOnce : Prop :=
  (∀ (s t : State) (id : Nat) (p : Word), s.Shape → exec (.prioWr id p) s = .next t → t.fault = none →
    ∀ c j, (eligible t c j = true ↔ s.cfg.isSource j = true ∧ s.ipAt j = true ∧ s.enAt c j = true ∧
      (s.thrAt c).toNat < (if j = id then p else s.prioAt j).toNat)) ∧
  (∀ (s t : State) (c w : Nat) (data : Word), s.Shape → exec (.enWr c w data) s = .next t → t.fault = none →
    ∀ k j, (eligible t k j = true ↔ s.cfg.isSource j = true ∧ s.ipAt j = true ∧
      (if k = c ∧ j / 32 = w then data.getLsbD (j % 32) else s.enAt k j) = true ∧
      (s.thrAt k).toNat < (s.prioAt j).toNat)) ∧
  (∀ (s t : State) (c : Nat) (v : Word), s.Shape → exec (.thrWr c v) s = .next t → t.fault = none →
    ∀ k j, (eligible t k j = true ↔ s.cfg.isSource j = true ∧ s.ipAt j = true ∧ s.enAt k j = true ∧
      (if k = c then v else s.thrAt k).toNat < (s.prioAt j).toNat)) ∧
  (∀ (t : State) (c : Nat), irqOut t c = true ↔ ∃ id, eligible t c id = true)

/-- Rule R107: configuration writes leave in-service bits and handshakes; an outstanding claim is ended by its complete and by
no other instruction; and what a complete does depends on neither priorities nor thresholds, and on the enable bits only with
`COMPLETE_REQUIRES_ENABLE`. -/
def Obligations.OutstandingClaimSurvivesConfigurationWrites : Prop :=
  (∀ (s t : State) (i : Instr), exec i s = .next t →
    ((∃ id p, i = .prioWr id p) ∨ (∃ c w d, i = .enWr c w d) ∨ (∃ c v, i = .thrWr c v)) →
    t.insvc = s.insvc ∧ t.hs = s.hs) ∧
  (∀ (s t : State) (i : Instr) (c x : Nat), exec i s = .next t → s.hsAt c = .inService x → t.hsAt c ≠ .inService x →
    ∃ data : Word, i = .complete c data ∧ data.toNat = x) ∧
  (∀ (s s' t : State) (c : Nat) (data : Word), s'.cfg = s.cfg → s'.insvc = s.insvc → s'.hs = s.hs → s'.fault = s.fault →
    (s.cfg.completeRequiresEnable = true → ∀ id, s'.enAt c id = s.enAt c id) →
    exec (.complete c data) s = .next t →
    ∃ t', exec (.complete c data) s' = .next t' ∧ t'.insvc = t.insvc ∧ t'.hs = t.hs ∧ t'.fault = t.fault)

/-- 20_memory.md section 3: a priority, enable or threshold write done twice leaves the state of doing it once; the second of two
equal completes faults. -/
def Obligations.ConfigurationWritesAreIdempotent : Prop :=
  (∀ (s t : State) (i : Instr), exec i s = .next t → t.fault = none →
    ((∃ id p, i = .prioWr id p) ∨ (∃ c w d, i = .enWr c w d) ∨ (∃ c v, i = .thrWr c v)) → exec i t = .next t) ∧
  (∀ (s t : State) (c : Nat) (data : Word), exec (.complete c data) s = .next t → t.fault = none → t.hsAt c = .idle →
    ∃ u, exec (.complete c data) t = .next u ∧ TookFault t u (.badComplete c data .idle))

/-! ## Source requests, eligibility and the priority encoder -/

/-- RAISE (rule R130): the request makes the source pending unless it is pending or in service, and changes nothing else; it is
taken whatever the priority and enable bits are, and also while a fault is recorded. -/
def Obligations.RaiseSetsPendingUnlessInService : Prop :=
  ∀ (s : State) (id : Nat), s.Shape → 1 ≤ id → id ≤ s.cfg.numSources →
    decode s.cfg (.source id) = .raise id ∧
    ∃ t, exec (.raise id) s = .next t ∧
      (s.insvcAt id = false → s.ipAt id = false → t.ipAt id = true) ∧
      (s.insvcAt id = true ∨ s.ipAt id = true → t.ip = s.ip) ∧
      (∀ j, j ≠ id → t.ipAt j = s.ipAt j) ∧
      t.insvc = s.insvc ∧ t.hs = s.hs ∧ SameRegisters s t ∧ t.fault = s.fault ∧ t.result = none ∧ SameSetting s t ∧
      t.draws = s.draws

/-- The model's choice (log entry 7): the sources are the IDs `1..N` (00_scope.md section 2), so a request on another line is no
event of the block, and the model refuses it by name, at the instruction and at the step. -/
def Obligations.RequestOfNoSourceLineIsRefused : Prop :=
  (∀ (s : State) (id : Nat), (id = 0 ∨ s.cfg.numSources < id) → exec (.raise id) s = .refused .noSourceLine) ∧
  (∀ (s : State) (id : Nat) (es : List Event), s.cfg.wf = true → s.inputs = .source id :: es →
    ((1 ≤ id ∧ id ≤ s.cfg.numSources) ↔ ∃ t, step s = .next t))

/-- Rule R132: eligibility is pending, enabled and of priority above the threshold, compared unsigned; in states of the invariant
an in-service source is eligible for no context. -/
def Obligations.EligibleMeansPendingEnabledAboveThreshold : Prop :=
  (∀ (s : State) (c id : Nat), 1 ≤ id → id ≤ s.cfg.numSources →
    (eligible s c id = true ↔ s.ipAt id = true ∧ s.enAt c id = true ∧ (s.thrAt c).toNat < (s.prioAt id).toNat)) ∧
  (∀ (s : State) (c id : Nat), s.Inv → s.insvcAt id = true → eligible s c id = false)

/-- Rule R134: the encoder answers 0 on the empty candidate set, the least candidate with `LowestId`, and with `Any` a candidate,
every candidate being selected by some free value; a single candidate is answered under both. -/
def Obligations.EncoderPicksACandidate : Prop :=
  ∀ (s : State) (c : Nat), s.cfg.wf = true →
    ((∀ id, ¬ IsCandidate s c id) → ∀ k, pick s c k = 0) ∧
    (s.cfg.tieBreak = .lowestId → (∃ id, IsCandidate s c id) →
      ∀ k, IsCandidate s c (pick s c k) ∧ ∀ j, IsCandidate s c j → pick s c k ≤ j) ∧
    (s.cfg.tieBreak = .any → (∃ id, IsCandidate s c id) →
      (∀ k, IsCandidate s c (pick s c k)) ∧ ∀ j, IsCandidate s c j → ∃ k, pick s c k = j) ∧
    (∀ j, (∀ id, IsCandidate s c id ↔ id = j) → ∀ k, pick s c k = j)

/-- 41_arbiter.md section 3: of two eligible sources the one of lower priority is picked by no free value, and a claim does not
return it. -/
def Obligations.HigherPriorityIsClaimedFirst : Prop :=
  (∀ (s : State) (c a b : Nat) (k : Word), eligible s c a = true → eligible s c b = true →
    (s.prioAt b).toNat < (s.prioAt a).toNat → pick s c k ≠ b) ∧
  (∀ (s : State) (c a b : Nat), s.fault = none → s.cfg.wf = true → c < s.cfg.numHarts → s.hsAt c = .idle →
    eligible s c a = true → eligible s c b = true → (s.prioAt b).toNat < (s.prioAt a).toNat →
    ∃ t id, exec (.claim c) s = .next t ∧ t.result = some (BitVec.ofNat 32 id) ∧ IsCandidate s c id ∧
      t.result ≠ some (BitVec.ofNat 32 b))

/-- Rule R136: the output of a context is true exactly when some source is eligible, that is exactly when a claim of that context
at this step would return a nonzero ID. -/
def Obligations.NotificationMeansAClaimReturnsAnId : Prop :=
  (∀ (s : State) (c : Nat), irqOut s c = true ↔ ∃ id, eligible s c id = true) ∧
  (∀ (s : State) (c : Nat), s.fault = none → s.cfg.wf = true → c < s.cfg.numHarts → s.hsAt c = .idle →
    ∃ t v, exec (.claim c) s = .next t ∧ t.result = some v ∧ (irqOut s c = true ↔ v ≠ 0#32))

/-- 41_arbiter.md section 5: priority 0, a threshold at or above the priority, a threshold of `MAX_PRIORITY`, and a clear enable bit
each make a source ineligible; clearing the enable bit leaves the source pending, and setting it again with the priority above
the threshold makes it eligible again. -/
def Obligations.MaskingKeepsPendency : Prop :=
  (∀ (s : State) (c id : Nat), s.prioAt id = 0#32 → eligible s c id = false) ∧
  (∀ (s : State) (c id : Nat), (s.prioAt id).toNat ≤ (s.thrAt c).toNat → eligible s c id = false) ∧
  (∀ (s : State) (c id : Nat), s.Inv → (s.thrAt c).toNat = s.cfg.maxPriority → eligible s c id = false) ∧
  (∀ (s : State) (c id : Nat) (clear set : Word), s.fault = none → s.Shape → c < s.cfg.numHarts → 1 ≤ id →
    id ≤ s.cfg.numSources → clear.getLsbD (id % 32) = false → set.getLsbD (id % 32) = true → s.ipAt id = true →
    (s.thrAt c).toNat < (s.prioAt id).toNat →
    ∃ t u, exec (.enWr c (id / 32) clear) s = .next t ∧ t.ipAt id = true ∧ eligible t c id = false ∧
      exec (.enWr c (id / 32) set) t = .next u ∧ u.ipAt id = true ∧ eligible u c id = true)

/-! ## The claim/complete handshake -/

/-- Rule R150: the seven transitions of a context's handshake, with their other effects, and that no other instruction changes
the handshake. -/
def Obligations.HandshakeTransitions : Prop :=
  (∀ (s : State) (c : Nat), s.fault = none → s.Shape → s.cfg.wf = true → c < s.cfg.numHarts →
    (s.hsAt c = .idle → pick s c s.drawn = 0 →
      ∃ t, exec (.claim c) s = .next t ∧ t.result = some 0#32 ∧ t.fault = none ∧ SameInterruptState s t) ∧
    (s.hsAt c = .idle → pick s c s.drawn ≠ 0 →
      ∃ t id, id = pick s c s.drawn ∧ exec (.claim c) s = .next t ∧ t.result = some (BitVec.ofNat 32 id) ∧
        t.fault = none ∧ t.hsAt c = .inService id ∧ t.ipAt id = false ∧ t.insvcAt id = true) ∧
    (∀ x, s.hsAt c = .inService x → ∃ t, exec (.claim c) s = .next t ∧ TookFault s t (.nestedClaim c x)) ∧
    (∀ (x : Nat) (v : Word), s.hsAt c = .inService x → v.toNat = x → 1 ≤ x → x ≤ s.cfg.numSources →
      (s.cfg.completeRequiresEnable = false ∨ s.enAt c x = true) →
      ∃ t, exec (.complete c v) s = .next t ∧ t.fault = none ∧ t.hsAt c = .idle ∧ t.insvcAt x = false) ∧
    (∀ (x : Nat) (v : Word), s.hsAt c = .inService x → v.toNat = x →
      s.cfg.completeRequiresEnable = true → s.enAt c x = false →
      ∃ t, exec (.complete c v) s = .next t ∧ t.fault = none ∧ SameRegisters s t ∧ SameInterruptState s t) ∧
    (∀ (x : Nat) (v : Word), s.hsAt c = .inService x → v.toNat ≠ x →
      ∃ t, exec (.complete c v) s = .next t ∧ TookFault s t (.badComplete c v (.inService x))) ∧
    (∀ v : Word, s.hsAt c = .idle → ∃ t, exec (.complete c v) s = .next t ∧ TookFault s t (.badComplete c v .idle))) ∧
  (∀ (s t : State) (i : Instr) (c : Nat), exec i s = .next t → t.hsAt c ≠ s.hsAt c →
    i = .claim c ∨ ∃ v, i = .complete c v)

/-- CLAIM (rule R151): from `Idle` the value returned is the encoder's choice on this state; a nonzero choice is marked (pending
cleared, in service set, held by this context) and is then eligible for no context; a choice of 0 changes nothing; the registers
stay. A source that is not eligible is not returned. The tie is decided by the free value of this step, and the count of free
values, the model's own (log entry 2), advances. -/
def Obligations.ClaimReturnsAndMarksThePick : Prop :=
  ∀ (s : State) (c : Nat), s.fault = none → s.Shape → s.cfg.wf = true → c < s.cfg.numHarts →
    decode s.cfg (.host (Transaction.r32 (s.cfg.claimOffset + c * s.cfg.claimStride))) = .claim c ∧
    (∀ x, s.hsAt c = .inService x → ∃ t, exec (.claim c) s = .next t ∧ TookFault s t (.nestedClaim c x)) ∧
    (s.hsAt c = .idle →
      ∃ t id, id = pick s c s.drawn ∧ exec (.claim c) s = .next t ∧ t.result = some (BitVec.ofNat 32 id) ∧
        t.fault = none ∧ SameRegisters s t ∧ SameSetting s t ∧ t.draws = s.draws + 1 ∧
        ((∀ j, eligible s c j = false) → id = 0) ∧
        (∀ j, 1 ≤ j → j ≤ s.cfg.numSources → eligible s c j = false → t.result ≠ some (BitVec.ofNat 32 j)) ∧
        (id = 0 → SameInterruptState s t) ∧
        (id ≠ 0 → t.ipAt id = false ∧ t.insvcAt id = true ∧ t.hsAt c = .inService id ∧
          (∀ j, j ≠ id → t.ipAt j = s.ipAt j ∧ t.insvcAt j = s.insvcAt j) ∧ (∀ k, k ≠ c → t.hsAt k = s.hsAt k) ∧
          (∀ k, eligible t k id = false)))

/-- COMPLETE (rule R152): the value must be the ID the context holds, else `Fault(BadComplete)` (context idle, value 0, another ID,
another context, a second complete); then the in-service marker is retired and the context is idle, whatever the priority and
threshold are, unless `COMPLETE_REQUIRES_ENABLE` holds and the enable bit is clear, when nothing changes. The pending bits
stay. -/
def Obligations.CompleteRetiresTheHeldId : Prop :=
  ∀ (s : State) (c : Nat) (v : Word), s.fault = none → s.Inv → c < s.cfg.numHarts →
    (s.cfg.wf = true →
      decode s.cfg (.host (Transaction.w32 (s.cfg.claimOffset + c * s.cfg.claimStride) v)) = .complete c v) ∧
    (s.hsAt c ≠ .inService v.toNat →
      ∃ t, exec (.complete c v) s = .next t ∧ TookFault s t (.badComplete c v (s.hsAt c))) ∧
    (v = 0#32 ∨ s.cfg.numSources < v.toNat → s.hsAt c ≠ .inService v.toNat) ∧
    (s.hsAt c = .inService v.toNat → (s.cfg.completeRequiresEnable = false ∨ s.enAt c v.toNat = true) →
      ∃ t u, exec (.complete c v) s = .next t ∧ t.insvcAt v.toNat = false ∧ t.hsAt c = .idle ∧
        (∀ j, j ≠ v.toNat → t.insvcAt j = s.insvcAt j) ∧ (∀ k, k ≠ c → t.hsAt k = s.hsAt k) ∧ t.ip = s.ip ∧
        SameRegisters s t ∧ t.fault = none ∧ t.result = none ∧ SameSetting s t ∧ t.draws = s.draws ∧
        exec (.complete c v) t = .next u ∧ TookFault t u (.badComplete c v .idle)) ∧
    (s.hsAt c = .inService v.toNat → s.cfg.completeRequiresEnable = true → s.enAt c v.toNat = false →
      ∃ t, exec (.complete c v) s = .next t ∧ SameRegisters s t ∧ SameInterruptState s t ∧ t.fault = none ∧
        t.result = none ∧ SameSetting s t ∧ t.draws = s.draws)

/-- 42_claim_complete.md section 4: while a source is in service no claim of any context returns it. -/
def Obligations.InServiceSourceIsNotClaimed : Prop :=
  ∀ (s t : State) (c id : Nat), s.Inv → s.cfg.wf = true → s.insvcAt id = true → exec (.claim c) s = .next t →
    t.result ≠ some (BitVec.ofNat 32 id)

/-- 42_claim_complete.md section 4: an occurrence is returned by at most one claim. Two idle contexts claim one after the other, and the
second does not return what the first returned; and after a claim that returned an ID, through every run without a new request of that
source (completes, other claims, configuration writes and resets included), the source is not pending and no claim of any context
returns it. -/
def Obligations.OneOccurrenceHasOneClaimer : Prop :=
  (∀ (s : State) (c k : Nat), s.fault = none → s.Inv → s.cfg.wf = true → c < s.cfg.numHarts → k < s.cfg.numHarts → c ≠ k →
    s.hsAt c = .idle → s.hsAt k = .idle →
    ∃ t u v w, exec (.claim c) s = .next t ∧ t.result = some v ∧ exec (.claim k) t = .next u ∧ u.result = some w ∧
      u.fault = none ∧ (v ≠ 0#32 → w ≠ v)) ∧
  (∀ (s t u : State) (c id : Nat), s.Inv → s.cfg.wf = true → 1 ≤ id → id ≤ s.cfg.numSources →
    exec (.claim c) s = .next t → t.result = some (BitVec.ofNat 32 id) →
    (∀ e ∈ t.inputs, e ≠ .source id) → Reaches t u →
    u.ipAt id = false ∧ ∀ k v, exec (.claim k) u = .next v → v.result ≠ some (BitVec.ofNat 32 id))

/-- 42_claim_complete.md section 4: after a claim that returned an ID and the complete of that ID, a new request makes the source
pending again, and every context for which it is enabled and above threshold is notified. -/
def Obligations.CompletedSourceIsClaimableAgain : Prop :=
  ∀ (s : State) (c id : Nat), s.fault = none → s.Inv → s.cfg.wf = true → c < s.cfg.numHarts → s.hsAt c = .idle →
    id = pick s c s.drawn → id ≠ 0 →
    ∃ t u v, exec (.claim c) s = .next t ∧ exec (.complete c (BitVec.ofNat 32 id)) t = .next u ∧ u.insvcAt id = false ∧
      u.hsAt c = .idle ∧ exec (.raise id) u = .next v ∧ v.fault = none ∧ v.ipAt id = true ∧
      ∀ k, v.enAt k id = true → (v.thrAt k).toNat < (v.prioAt id).toNat → eligible v k id = true ∧ irqOut v k = true

/-- 42_claim_complete.md section 4: through every run whose schedule holds neither the complete of the held ID to that context
nor a reset, the context keeps its claim: the source stays in service and never becomes pending, and a claim of the context
faults. -/
def Obligations.UncompletedClaimIsHeldForGood : Prop :=
  ∀ (s t : State) (c id : Nat), s.Inv → s.hsAt c = .inService id →
    (∀ e ∈ s.inputs, e ≠ .reset ∧ ¬ IsCompleteOf s.cfg c id e) → Reaches s t →
    t.hsAt c = .inService id ∧ t.insvcAt id = true ∧ t.ipAt id = false ∧
    (t.fault = none → ∃ u, exec (.claim c) t = .next u ∧ TookFault t u (.nestedClaim c id))

/-! ## Faults and reset -/

/-- Rule R52, rule R53, rule R66: an access of another width, a misaligned one and an instruction fetch take `Fault(BadAccess)`
with the kind, size and offset recorded, and change no other state. -/
def Obligations.BadAccessTakesTheFault : Prop :=
  (∀ (s : State) (t : Transaction), s.fault = none →
    ∃ u, exec (.badAccess t) s = .next u ∧ TookFault s u (.badAccess t.kind t.size t.place) ∧ faultCode u.fault = 1) ∧
  (∀ (cfg : Config) (t : Transaction), (t.kind = .fetch ∨ t.size ≠ 4 ∨ t.place.toNat % 4 ≠ 0) →
    decode cfg (.host t) = .badAccess t)

/-- 30_encoding.md section 4: an aligned 32-bit access to an offset where no register stands takes `Fault(Unmapped)` with the kind
and offset recorded, and changes no other state. -/
def Obligations.UnmappedAccessTakesTheFault : Prop :=
  (∀ (s : State) (t : Transaction), s.fault = none →
    ∃ u, exec (.unmapped t) s = .next u ∧ TookFault s u (.unmapped t.kind t.place) ∧ faultCode u.fault = 2) ∧
  (∀ (cfg : Config) (t : Transaction), cfg.wf = true → t.kind ≠ .fetch → t.size = 4 → t.place.toNat % 4 = 0 →
    (∀ id, 1 ≤ id → id ≤ cfg.numSources → t.place.toNat ≠ cfg.prioOff id) →
    (∀ c < cfg.numHarts, (∀ w < cfg.numEnableWords, t.place.toNat ≠ cfg.enwOff c w) ∧ t.place.toNat ≠ cfg.thrOff c ∧
      t.place.toNat ≠ cfg.clmOff c) →
    decode cfg (.host t) = .unmapped t)

/-- The model's choice for instructions that no request decodes to (log entry 7): with an index out of range a register row takes
`Fault(Unmapped)`, as the rows of spec/opcode_table.json say of such an index, with the offset its indices give recorded. -/
def Obligations.IndexOutOfRangeTakesUnmapped : Prop :=
  (∀ (s : State) (id : Nat) (p : Word), s.fault = none → (id = 0 ∨ s.cfg.numSources < id) →
    (∃ t, exec (.prioRd id) s = .next t ∧ TookFault s t (.unmapped .read (offWord (s.cfg.prioOff id)))) ∧
    (∃ t, exec (.prioWr id p) s = .next t ∧ TookFault s t (.unmapped .write (offWord (s.cfg.prioOff id))))) ∧
  (∀ (s : State) (c w : Nat) (data : Word), s.fault = none → (s.cfg.numHarts ≤ c ∨ s.cfg.numEnableWords ≤ w) →
    (∃ t, exec (.enRd c w) s = .next t ∧ TookFault s t (.unmapped .read (offWord (s.cfg.enwOff c w)))) ∧
    (∃ t, exec (.enWr c w data) s = .next t ∧ TookFault s t (.unmapped .write (offWord (s.cfg.enwOff c w))))) ∧
  (∀ (s : State) (c : Nat) (v : Word), s.fault = none → s.cfg.numHarts ≤ c →
    (∃ t, exec (.thrRd c) s = .next t ∧ TookFault s t (.unmapped .read (offWord (s.cfg.thrOff c)))) ∧
    (∃ t, exec (.thrWr c v) s = .next t ∧ TookFault s t (.unmapped .write (offWord (s.cfg.thrOff c)))) ∧
    (∃ t, exec (.claim c) s = .next t ∧ TookFault s t (.unmapped .read (offWord (s.cfg.clmOff c)))) ∧
    (∃ t, exec (.complete c v) s = .next t ∧ TookFault s t (.unmapped .write (offWord (s.cfg.clmOff c)))))

/-- The fault code a transaction records on a clean state, in the order of 60_exceptions.md section 1: BadAccess, then Unmapped,
then the check of the decoded target. -/
def Sys2Proof.Machine.expectedCode (s : State) (t : Transaction) : Nat :=
  if t.isBad then 1
  else if !s.cfg.mapped t.place.toNat then 2
  else match t with
    | .read _ off =>
      if (List.range s.cfg.numHarts).any (fun c => off.toNat == s.cfg.clmOff c && s.hsAt c != .idle) then 4 else 0
    | .write _ off data =>
      if (List.range s.cfg.numHarts).any (fun c => off.toNat == s.cfg.clmOff c) then
        if (List.range s.cfg.numHarts).any (fun c => off.toNat == s.cfg.clmOff c && s.hsAt c == .inService data.toNat)
        then 0 else 5
      else if ((List.range' 1 s.cfg.numSources).any (fun id => off.toNat == s.cfg.prioOff id) ||
        (List.range s.cfg.numHarts).any (fun c => off.toNat == s.cfg.thrOff c)) && decide (s.cfg.maxPriority < data.toNat)
      then 3 else 0
    | .fetch _ _ => 1

/-- 60_exceptions.md section 1: every transaction on a clean state completes and records at most one fault, the first cause in the
order of the precedence rule. -/
def Obligations.OneFaultInPrecedenceOrder : Prop :=
  ∀ (s : State) (t : Transaction), s.fault = none → s.cfg.wf = true →
    ∃ u, request (.host t) s = .next u ∧ faultCode u.fault = expectedCode s t

/-- Rule R170: a step that raises a fault writes the record and nothing else and returns no value; while a fault is recorded no
host transaction is performed (the model's step then stops by name, log entry 4); nothing but a reset clears the record. -/
def Obligations.FaultIsRecordedAndEndsTheRun : Prop :=
  (∀ (s t : State) (i : Instr) (r : FaultRecord), s.fault = none → exec i s = .next t → t.fault = some r →
    TookFault s t r) ∧
  (∀ (s : State) (r : FaultRecord) (t : Transaction), s.fault = some r → request (.host t) s = .fault (.halted r)) ∧
  (∀ (s : State) (r : FaultRecord) (t : Transaction) (es : List Event), s.fault = some r → s.cfg.wf = true →
    s.inputs = .host (t.moveTo (s.cfg.base + t.place.toNat)) :: es → step s = .fault (.halted r)) ∧
  (∀ (s t : State) (r : FaultRecord), s.fault = some r → step s = .next t →
    (t.fault = some r ∧ ¬ NextIsReset s) ∨ (t.fault = none ∧ NextIsReset s))

/-- 70_reset_and_hazards.md section 1: a reset gives every element its reset value under every configuration: free values in the
legal range for priorities and thresholds, free enable bits, nothing pending, nothing in service, every context idle, no fault.
Which use of the free value stands behind which register, and that the reset counts its uses so that the next use is behind
them, is the model's choice (log entries 2 and 3), as is the reference configuration of `State.reset` (log entry 1). -/
def Obligations.ResetEstablishesTheResetValues : Prop :=
  (∀ (cfg : Config) (n : Nat) (es : List Event) (s : State), s = State.resetWith cfg n es →
    (∀ id, 1 ≤ id → id ≤ cfg.numSources →
      s.prioAt id = drawPriority cfg (n + (id - 1)) ∧ (s.prioAt id).toNat ≤ cfg.maxPriority ∧
      s.ipAt id = false ∧ s.insvcAt id = false) ∧
    (∀ c < cfg.numHarts, s.thrAt c = drawPriority cfg (n + cfg.numSources + c) ∧
      (s.thrAt c).toNat ≤ cfg.maxPriority ∧ s.hsAt c = .idle ∧
      ∀ id, 1 ≤ id → id ≤ cfg.numSources → s.enAt c id = resetEn cfg n c id) ∧
    s.fault = none ∧ s.cfg = cfg ∧ s.inputs = es ∧
    s.draws = n + cfg.numSources + cfg.numHarts + cfg.numHarts * cfg.numEnableWords) ∧
  State.reset = State.resetWith Config.reference 0 [] ∧
  (∀ (s : State) (es : List Event), s.cfg.wf = true → s.inputs = .reset :: es →
    step s = .next (State.resetWith s.cfg s.draws es))

/-! ## Invariants and rules of the whole machine -/

/-- The state after reset meets the invariant of 10_state.md section 3, under every configuration. -/
def Obligations.ResetMeetsTheInvariant : Prop :=
  State.reset.Inv ∧ ∀ (cfg : Config) (n : Nat) (es : List Event), (State.resetWith cfg n es).Inv

/-- Every step keeps the invariant of 10_state.md section 3, from every state that meets it: a pending source is not in service, a
source is in service exactly when one context holds it, at most one context holds it, and priorities and thresholds stay
legal. -/
def Obligations.EveryStepKeepsTheInvariant : Prop :=
  ∀ s t : State, s.Inv → step s = .next t → t.Inv

/-- No step changes the configuration, every step consumes exactly the event it performs, and the count of used free values never
falls. All three fields are the model's own (log entries 1, 2 and 5). -/
def Obligations.StepConsumesOneEvent : Prop :=
  ∀ s t : State, step s = .next t → t.cfg = s.cfg ∧ (∃ e, s.inputs = e :: t.inputs) ∧ s.draws ≤ t.draws

/-- 10_state.md section 2 and section 3, which name for every register the only events that write it: priorities, enable bits
and thresholds change by their own writes, pending bits are set by a request of the source and cleared by the claim that returns
it, in-service bits are set by that claim and cleared by a complete of the ID, handshakes change by claim and complete of the
context; and everything changes by reset. -/
def Obligations.RegistersChangeOnlyByTheirOwnEvents : Prop :=
  ∀ s t : State, s.Shape → step s = .next t → ¬ NextIsReset s →
    (∀ id, t.prioAt id ≠ s.prioAt id → NextIs s (.prioWr id (t.prioAt id))) ∧
    (∀ c id, t.enAt c id ≠ s.enAt c id →
      ∃ data : Word, NextIs s (.enWr c (id / 32) data) ∧ data.getLsbD (id % 32) = t.enAt c id) ∧
    (∀ c, t.thrAt c ≠ s.thrAt c → NextIs s (.thrWr c (t.thrAt c))) ∧
    (∀ id, s.ipAt id = false → t.ipAt id = true → NextIs s (.raise id)) ∧
    (∀ id, s.ipAt id = true → t.ipAt id = false →
      ∃ c, NextIs s (.claim c) ∧ t.result = some (BitVec.ofNat 32 id) ∧ t.hsAt c = .inService id) ∧
    (∀ id, s.insvcAt id = false → t.insvcAt id = true →
      ∃ c, NextIs s (.claim c) ∧ t.result = some (BitVec.ofNat 32 id) ∧ t.hsAt c = .inService id) ∧
    (∀ id, s.insvcAt id = true → t.insvcAt id = false →
      ∃ (c : Nat) (data : Word), NextIs s (.complete c data) ∧ data.toNat = id ∧ s.hsAt c = .inService id) ∧
    (∀ c, t.hsAt c ≠ s.hsAt c → NextIs s (.claim c) ∨ ∃ data, NextIs s (.complete c data))

/-- 60_exceptions.md section 3: the enable bits, the threshold and the handshake of a context are changed by no instruction
addressed to another context or to none; and what a claim returns and marks depends on no other context's enable bits, threshold
or handshake. -/
def Obligations.ContextsAreIsolated : Prop :=
  (∀ (s t : State) (i : Instr) (c : Nat), exec i s = .next t → addressedContext i ≠ some c →
    (∀ id, t.enAt c id = s.enAt c id) ∧ t.thrAt c = s.thrAt c ∧ t.hsAt c = s.hsAt c) ∧
  (∀ (s s' t : State) (c : Nat), s'.cfg = s.cfg → s'.prio = s.prio → s'.ip = s.ip → s'.insvc = s.insvc →
    s'.fault = s.fault → s'.draws = s.draws → (∀ id, s'.enAt c id = s.enAt c id) → s'.thrAt c = s.thrAt c →
    s'.hsAt c = s.hsAt c → exec (.claim c) s = .next t →
    ∃ t', exec (.claim c) s' = .next t' ∧ t'.result = t.result ∧ t'.ip = t.ip ∧ t'.insvc = t.insvc ∧ t'.fault = t.fault)

/-! ## Host sequences -/

/-- 30_encoding.md section 5: ENABLE and DISABLE of a source, with no other event between their two transactions, set and clear
that source's enable bit in the context and leave every other enable bit, whatever the free bits of the word read. -/
def Obligations.EnableAndDisableAreBitPrecise : Prop :=
  ∀ (s : State) (c id : Nat), s.fault = none → s.Shape → s.cfg.wf = true → c < s.cfg.numHarts → 1 ≤ id →
    id ≤ s.cfg.numSources →
    (∃ t, driverEnable c id s = .next t ∧ t.fault = none ∧ t.enAt c id = true ∧
      (∀ k j, (k ≠ c ∨ j ≠ id) → t.enAt k j = s.enAt k j) ∧ t.prio = s.prio ∧ t.thr = s.thr ∧ SameInterruptState s t) ∧
    (∃ t, driverDisable c id s = .next t ∧ t.fault = none ∧ t.enAt c id = false ∧
      (∀ k j, (k ≠ c ∨ j ≠ id) → t.enAt k j = s.enAt k j) ∧ t.prio = s.prio ∧ t.thr = s.thr ∧ SameInterruptState s t)

/-- 70_reset_and_hazards.md section 3, the read-modify-write race: another write of the word between the read and the write of
ENABLE is lost; the word ends as if that write had not happened. -/
def Obligations.InterleavedEnableLosesTheOtherWrite : Prop :=
  ∀ (s : State) (c id : Nat) (other : Word), s.fault = none → s.Shape → s.cfg.wf = true → c < s.cfg.numHarts → 1 ≤ id →
    id ≤ s.cfg.numSources →
    ∃ t u v, readReg (s.cfg.enwOff c (id / 32)) s = .next t ∧ writeReg (s.cfg.enwOff c (id / 32)) other t = .next u ∧
      writeReg (s.cfg.enwOff c (id / 32)) (t.value ||| enableMask id) u = .next v ∧ v.fault = none ∧
      v.enAt c id = true ∧ ∀ j, j ≠ id → v.enAt c j = s.enAt c j

/-- 70_reset_and_hazards.md section 2: INIT of a context, with no other event between its transactions, disables every source for
that context, sets every priority and the context's threshold to 0, and changes no pending bit, no in-service bit, no handshake
and no other context's registers; an outstanding claim of the context therefore stays outstanding (section 3). -/
def Obligations.InitDisablesAndZeroesEverySource : Prop :=
  ∀ (s : State) (c : Nat), s.fault = none → s.Shape → s.cfg.wf = true → c < s.cfg.numHarts →
    ∃ t, driverInit c s = .next t ∧ t.fault = none ∧
      (∀ id, 1 ≤ id → id ≤ s.cfg.numSources → t.enAt c id = false ∧ t.prioAt id = 0#32) ∧ t.thrAt c = 0#32 ∧
      (∀ k, k ≠ c → (∀ id, t.enAt k id = s.enAt k id) ∧ t.thrAt k = s.thrAt k) ∧ SameInterruptState s t ∧ SameSetting s t

/-- 30_encoding.md section 5 with 42_claim_complete.md section 4: DISPATCH on an idle context claims once; with nothing eligible it
returns and changes nothing of the interrupt state; otherwise it takes one occurrence of the picked source, and with a callback
registered it completes it (the context is idle again and nothing more is in service than before), without one the source stays
in service and held by the context. -/
def Obligations.DispatchPairsClaimAndComplete : Prop :=
  ∀ (s : State) (c : Nat) (registered : Nat → Bool), s.fault = none → s.Inv → s.cfg.wf = true → c < s.cfg.numHarts →
    s.hsAt c = .idle →
    ∃ t id, driverDispatch registered c s = .next t ∧ t.fault = none ∧ id = pick s c s.drawn ∧ SameRegisters s t ∧
      (id = 0 → SameInterruptState s t) ∧
      (id ≠ 0 → t.ipAt id = false ∧ (∀ j, j ≠ id → t.ipAt j = s.ipAt j) ∧
        (registered id = true → t.hsAt c = .idle ∧ ∀ j, t.insvcAt j = s.insvcAt j) ∧
        (registered id = false → t.hsAt c = .inService id ∧ t.insvcAt id = true))

/-- 20_memory.md section 1: a host sequence's access at a 32-bit offset is the request at that offset. At `2^32` or more there is no
offset (30_encoding.md section 1) and the spec says nothing: the model's choice is to refuse the access by name (log entry 13), as it
does for every operation of the driver whose first access lies there: ENABLE, DISABLE, SET_PRIORITY of a source, SET_THRESHOLD, CLAIM,
COMPLETE, INIT (whose first access is the enable word of source 1, `N >= 1` being rule R5) and DISPATCH. SET_CALLBACK, and SET_PRIORITY
outside `1..N`, issue no access. -/
def Obligations.SequenceAccessBeyondTheOffsetsIsRefused : Prop :=
  (∀ (s : State) (off : Nat) (v : Word), off < 2 ^ 32 →
    readReg off s = request (.host (Transaction.r32 off)) s ∧ writeReg off v s = request (.host (Transaction.w32 off v)) s) ∧
  (∀ (s : State) (off : Nat) (v : Word), 2 ^ 32 ≤ off →
    readReg off s = .refused .notRouted ∧ writeReg off v s = .refused .notRouted) ∧
  (∀ (s : State) (c id : Nat), 2 ^ 32 ≤ s.cfg.enwOff c (id / 32) →
    driverEnable c id s = .refused .notRouted ∧ driverDisable c id s = .refused .notRouted) ∧
  (∀ (s : State) (id : Nat) (p : Word), 1 ≤ id → id ≤ s.cfg.numSources → 2 ^ 32 ≤ s.cfg.prioOff id →
    driverSetPriority id p s = .refused .notRouted) ∧
  (∀ (s : State) (c : Nat) (v : Word), 2 ^ 32 ≤ s.cfg.thrOff c → driverSetThreshold c v s = .refused .notRouted) ∧
  (∀ (s : State) (c : Nat), 1 ≤ s.cfg.numSources → 2 ^ 32 ≤ s.cfg.enwOff c 0 → driverInit c s = .refused .notRouted) ∧
  (∀ (s : State) (c : Nat) (v : Word) (registered : Nat → Bool), 2 ^ 32 ≤ s.cfg.clmOff c →
    driverClaim c s = .refused .notRouted ∧ driverComplete c v s = .refused .notRouted ∧
      driverDispatch registered c s = .refused .notRouted)
end

