-- ==== Sys2Proof/Laws/State.lean ====
section
/-!
SUPPORT. One lemma per field of the state per update, true by rfl, so that no later proof unfolds a record update.
-/

namespace Sys2Proof.Machine.State
variable (s : State)

@[simp] theorem setPrio_cfg (id : Nat) (v : Word) : (s.setPrio id v).cfg = s.cfg := rfl
@[simp] theorem setPrio_prio (id : Nat) (v : Word) : (s.setPrio id v).prio = srcSet s.prio id v := rfl
@[simp] theorem setPrio_en (id : Nat) (v : Word) : (s.setPrio id v).en = s.en := rfl
@[simp] theorem setPrio_thr (id : Nat) (v : Word) : (s.setPrio id v).thr = s.thr := rfl
@[simp] theorem setPrio_ip (id : Nat) (v : Word) : (s.setPrio id v).ip = s.ip := rfl
@[simp] theorem setPrio_insvc (id : Nat) (v : Word) : (s.setPrio id v).insvc = s.insvc := rfl
@[simp] theorem setPrio_hs (id : Nat) (v : Word) : (s.setPrio id v).hs = s.hs := rfl
@[simp] theorem setPrio_fault (id : Nat) (v : Word) : (s.setPrio id v).fault = s.fault := rfl
@[simp] theorem setPrio_result (id : Nat) (v : Word) : (s.setPrio id v).result = s.result := rfl
@[simp] theorem setPrio_draws (id : Nat) (v : Word) : (s.setPrio id v).draws = s.draws := rfl
@[simp] theorem setPrio_inputs (id : Nat) (v : Word) : (s.setPrio id v).inputs = s.inputs := rfl

@[simp] theorem setEnRow_cfg (c : Nat) (row : List Bool) : (s.setEnRow c row).cfg = s.cfg := rfl
@[simp] theorem setEnRow_prio (c : Nat) (row : List Bool) : (s.setEnRow c row).prio = s.prio := rfl
@[simp] theorem setEnRow_en (c : Nat) (row : List Bool) : (s.setEnRow c row).en = s.en.set c row := rfl
@[simp] theorem setEnRow_thr (c : Nat) (row : List Bool) : (s.setEnRow c row).thr = s.thr := rfl
@[simp] theorem setEnRow_ip (c : Nat) (row : List Bool) : (s.setEnRow c row).ip = s.ip := rfl
@[simp] theorem setEnRow_insvc (c : Nat) (row : List Bool) : (s.setEnRow c row).insvc = s.insvc := rfl
@[simp] theorem setEnRow_hs (c : Nat) (row : List Bool) : (s.setEnRow c row).hs = s.hs := rfl
@[simp] theorem setEnRow_fault (c : Nat) (row : List Bool) : (s.setEnRow c row).fault = s.fault := rfl
@[simp] theorem setEnRow_result (c : Nat) (row : List Bool) : (s.setEnRow c row).result = s.result := rfl
@[simp] theorem setEnRow_draws (c : Nat) (row : List Bool) : (s.setEnRow c row).draws = s.draws := rfl
@[simp] theorem setEnRow_inputs (c : Nat) (row : List Bool) : (s.setEnRow c row).inputs = s.inputs := rfl

@[simp] theorem setThr_cfg (c : Nat) (v : Word) : (s.setThr c v).cfg = s.cfg := rfl
@[simp] theorem setThr_prio (c : Nat) (v : Word) : (s.setThr c v).prio = s.prio := rfl
@[simp] theorem setThr_en (c : Nat) (v : Word) : (s.setThr c v).en = s.en := rfl
@[simp] theorem setThr_thr (c : Nat) (v : Word) : (s.setThr c v).thr = s.thr.set c v := rfl
@[simp] theorem setThr_ip (c : Nat) (v : Word) : (s.setThr c v).ip = s.ip := rfl
@[simp] theorem setThr_insvc (c : Nat) (v : Word) : (s.setThr c v).insvc = s.insvc := rfl
@[simp] theorem setThr_hs (c : Nat) (v : Word) : (s.setThr c v).hs = s.hs := rfl
@[simp] theorem setThr_fault (c : Nat) (v : Word) : (s.setThr c v).fault = s.fault := rfl
@[simp] theorem setThr_result (c : Nat) (v : Word) : (s.setThr c v).result = s.result := rfl
@[simp] theorem setThr_draws (c : Nat) (v : Word) : (s.setThr c v).draws = s.draws := rfl
@[simp] theorem setThr_inputs (c : Nat) (v : Word) : (s.setThr c v).inputs = s.inputs := rfl

@[simp] theorem setIp_cfg (id : Nat) (b : Bool) : (s.setIp id b).cfg = s.cfg := rfl
@[simp] theorem setIp_prio (id : Nat) (b : Bool) : (s.setIp id b).prio = s.prio := rfl
@[simp] theorem setIp_en (id : Nat) (b : Bool) : (s.setIp id b).en = s.en := rfl
@[simp] theorem setIp_thr (id : Nat) (b : Bool) : (s.setIp id b).thr = s.thr := rfl
@[simp] theorem setIp_ip (id : Nat) (b : Bool) : (s.setIp id b).ip = srcSet s.ip id b := rfl
@[simp] theorem setIp_insvc (id : Nat) (b : Bool) : (s.setIp id b).insvc = s.insvc := rfl
@[simp] theorem setIp_hs (id : Nat) (b : Bool) : (s.setIp id b).hs = s.hs := rfl
@[simp] theorem setIp_fault (id : Nat) (b : Bool) : (s.setIp id b).fault = s.fault := rfl
@[simp] theorem setIp_result (id : Nat) (b : Bool) : (s.setIp id b).result = s.result := rfl
@[simp] theorem setIp_draws (id : Nat) (b : Bool) : (s.setIp id b).draws = s.draws := rfl
@[simp] theorem setIp_inputs (id : Nat) (b : Bool) : (s.setIp id b).inputs = s.inputs := rfl

@[simp] theorem setInsvc_cfg (id : Nat) (b : Bool) : (s.setInsvc id b).cfg = s.cfg := rfl
@[simp] theorem setInsvc_prio (id : Nat) (b : Bool) : (s.setInsvc id b).prio = s.prio := rfl
@[simp] theorem setInsvc_en (id : Nat) (b : Bool) : (s.setInsvc id b).en = s.en := rfl
@[simp] theorem setInsvc_thr (id : Nat) (b : Bool) : (s.setInsvc id b).thr = s.thr := rfl
@[simp] theorem setInsvc_ip (id : Nat) (b : Bool) : (s.setInsvc id b).ip = s.ip := rfl
@[simp] theorem setInsvc_insvc (id : Nat) (b : Bool) : (s.setInsvc id b).insvc = srcSet s.insvc id b := rfl
@[simp] theorem setInsvc_hs (id : Nat) (b : Bool) : (s.setInsvc id b).hs = s.hs := rfl
@[simp] theorem setInsvc_fault (id : Nat) (b : Bool) : (s.setInsvc id b).fault = s.fault := rfl
@[simp] theorem setInsvc_result (id : Nat) (b : Bool) : (s.setInsvc id b).result = s.result := rfl
@[simp] theorem setInsvc_draws (id : Nat) (b : Bool) : (s.setInsvc id b).draws = s.draws := rfl
@[simp] theorem setInsvc_inputs (id : Nat) (b : Bool) : (s.setInsvc id b).inputs = s.inputs := rfl

@[simp] theorem setHs_cfg (c : Nat) (h : Handshake) : (s.setHs c h).cfg = s.cfg := rfl
@[simp] theorem setHs_prio (c : Nat) (h : Handshake) : (s.setHs c h).prio = s.prio := rfl
@[simp] theorem setHs_en (c : Nat) (h : Handshake) : (s.setHs c h).en = s.en := rfl
@[simp] theorem setHs_thr (c : Nat) (h : Handshake) : (s.setHs c h).thr = s.thr := rfl
@[simp] theorem setHs_ip (c : Nat) (h : Handshake) : (s.setHs c h).ip = s.ip := rfl
@[simp] theorem setHs_insvc (c : Nat) (h : Handshake) : (s.setHs c h).insvc = s.insvc := rfl
@[simp] theorem setHs_hs (c : Nat) (h : Handshake) : (s.setHs c h).hs = s.hs.set c h := rfl
@[simp] theorem setHs_fault (c : Nat) (h : Handshake) : (s.setHs c h).fault = s.fault := rfl
@[simp] theorem setHs_result (c : Nat) (h : Handshake) : (s.setHs c h).result = s.result := rfl
@[simp] theorem setHs_draws (c : Nat) (h : Handshake) : (s.setHs c h).draws = s.draws := rfl
@[simp] theorem setHs_inputs (c : Nat) (h : Handshake) : (s.setHs c h).inputs = s.inputs := rfl

@[simp] theorem respond_cfg (v : Option Word) : (s.respond v).cfg = s.cfg := rfl
@[simp] theorem respond_prio (v : Option Word) : (s.respond v).prio = s.prio := rfl
@[simp] theorem respond_en (v : Option Word) : (s.respond v).en = s.en := rfl
@[simp] theorem respond_thr (v : Option Word) : (s.respond v).thr = s.thr := rfl
@[simp] theorem respond_ip (v : Option Word) : (s.respond v).ip = s.ip := rfl
@[simp] theorem respond_insvc (v : Option Word) : (s.respond v).insvc = s.insvc := rfl
@[simp] theorem respond_hs (v : Option Word) : (s.respond v).hs = s.hs := rfl
@[simp] theorem respond_fault (v : Option Word) : (s.respond v).fault = s.fault := rfl
@[simp] theorem respond_result (v : Option Word) : (s.respond v).result = v := rfl
@[simp] theorem respond_draws (v : Option Word) : (s.respond v).draws = s.draws := rfl
@[simp] theorem respond_inputs (v : Option Word) : (s.respond v).inputs = s.inputs := rfl

@[simp] theorem countDraw_cfg : s.countDraw.cfg = s.cfg := rfl
@[simp] theorem countDraw_prio : s.countDraw.prio = s.prio := rfl
@[simp] theorem countDraw_en : s.countDraw.en = s.en := rfl
@[simp] theorem countDraw_thr : s.countDraw.thr = s.thr := rfl
@[simp] theorem countDraw_ip : s.countDraw.ip = s.ip := rfl
@[simp] theorem countDraw_insvc : s.countDraw.insvc = s.insvc := rfl
@[simp] theorem countDraw_hs : s.countDraw.hs = s.hs := rfl
@[simp] theorem countDraw_fault : s.countDraw.fault = s.fault := rfl
@[simp] theorem countDraw_result : s.countDraw.result = s.result := rfl
@[simp] theorem countDraw_draws : s.countDraw.draws = s.draws + 1 := rfl
@[simp] theorem countDraw_inputs : s.countDraw.inputs = s.inputs := rfl

@[simp] theorem withInputs_cfg (es : List Event) : (s.withInputs es).cfg = s.cfg := rfl
@[simp] theorem withInputs_prio (es : List Event) : (s.withInputs es).prio = s.prio := rfl
@[simp] theorem withInputs_en (es : List Event) : (s.withInputs es).en = s.en := rfl
@[simp] theorem withInputs_thr (es : List Event) : (s.withInputs es).thr = s.thr := rfl
@[simp] theorem withInputs_ip (es : List Event) : (s.withInputs es).ip = s.ip := rfl
@[simp] theorem withInputs_insvc (es : List Event) : (s.withInputs es).insvc = s.insvc := rfl
@[simp] theorem withInputs_hs (es : List Event) : (s.withInputs es).hs = s.hs := rfl
@[simp] theorem withInputs_fault (es : List Event) : (s.withInputs es).fault = s.fault := rfl
@[simp] theorem withInputs_result (es : List Event) : (s.withInputs es).result = s.result := rfl
@[simp] theorem withInputs_draws (es : List Event) : (s.withInputs es).draws = s.draws := rfl
@[simp] theorem withInputs_inputs (es : List Event) : (s.withInputs es).inputs = es := rfl

@[simp] theorem takeFault_cfg (r : FaultRecord) : (s.takeFault r).cfg = s.cfg := rfl
@[simp] theorem takeFault_prio (r : FaultRecord) : (s.takeFault r).prio = s.prio := rfl
@[simp] theorem takeFault_en (r : FaultRecord) : (s.takeFault r).en = s.en := rfl
@[simp] theorem takeFault_thr (r : FaultRecord) : (s.takeFault r).thr = s.thr := rfl
@[simp] theorem takeFault_ip (r : FaultRecord) : (s.takeFault r).ip = s.ip := rfl
@[simp] theorem takeFault_insvc (r : FaultRecord) : (s.takeFault r).insvc = s.insvc := rfl
@[simp] theorem takeFault_hs (r : FaultRecord) : (s.takeFault r).hs = s.hs := rfl
@[simp] theorem takeFault_fault (r : FaultRecord) : (s.takeFault r).fault = some r := rfl
@[simp] theorem takeFault_result (r : FaultRecord) : (s.takeFault r).result = none := rfl
@[simp] theorem takeFault_draws (r : FaultRecord) : (s.takeFault r).draws = s.draws := rfl
@[simp] theorem takeFault_inputs (r : FaultRecord) : (s.takeFault r).inputs = s.inputs := rfl

@[simp] theorem writeEnWord_cfg (c w : Nat) (data : Word) : (s.writeEnWord c w data).cfg = s.cfg := rfl
@[simp] theorem writeEnWord_prio (c w : Nat) (data : Word) : (s.writeEnWord c w data).prio = s.prio := rfl
@[simp] theorem writeEnWord_en (c w : Nat) (data : Word) : (s.writeEnWord c w data).en = s.en.set c ((List.range' 1 s.cfg.numSources).map (s.enBitAfter c w data)) := rfl
@[simp] theorem writeEnWord_thr (c w : Nat) (data : Word) : (s.writeEnWord c w data).thr = s.thr := rfl
@[simp] theorem writeEnWord_ip (c w : Nat) (data : Word) : (s.writeEnWord c w data).ip = s.ip := rfl
@[simp] theorem writeEnWord_insvc (c w : Nat) (data : Word) : (s.writeEnWord c w data).insvc = s.insvc := rfl
@[simp] theorem writeEnWord_hs (c w : Nat) (data : Word) : (s.writeEnWord c w data).hs = s.hs := rfl
@[simp] theorem writeEnWord_fault (c w : Nat) (data : Word) : (s.writeEnWord c w data).fault = s.fault := rfl
@[simp] theorem writeEnWord_result (c w : Nat) (data : Word) : (s.writeEnWord c w data).result = s.result := rfl
@[simp] theorem writeEnWord_draws (c w : Nat) (data : Word) : (s.writeEnWord c w data).draws = s.draws := rfl
@[simp] theorem writeEnWord_inputs (c w : Nat) (data : Word) : (s.writeEnWord c w data).inputs = s.inputs := rfl

@[simp] theorem retire_cfg (c id : Nat) : (s.retire c id).cfg = s.cfg := rfl
@[simp] theorem retire_prio (c id : Nat) : (s.retire c id).prio = s.prio := rfl
@[simp] theorem retire_en (c id : Nat) : (s.retire c id).en = s.en := rfl
@[simp] theorem retire_thr (c id : Nat) : (s.retire c id).thr = s.thr := rfl
@[simp] theorem retire_ip (c id : Nat) : (s.retire c id).ip = s.ip := rfl
@[simp] theorem retire_insvc (c id : Nat) : (s.retire c id).insvc = srcSet s.insvc id false := rfl
@[simp] theorem retire_hs (c id : Nat) : (s.retire c id).hs = s.hs.set c .idle := rfl
@[simp] theorem retire_fault (c id : Nat) : (s.retire c id).fault = s.fault := rfl
@[simp] theorem retire_result (c id : Nat) : (s.retire c id).result = s.result := rfl
@[simp] theorem retire_draws (c id : Nat) : (s.retire c id).draws = s.draws := rfl
@[simp] theorem retire_inputs (c id : Nat) : (s.retire c id).inputs = s.inputs := rfl

/-! The accessors after an update of another field. -/

@[simp] theorem thrAt_setPrio (id : Nat) (v : Word) (k : Nat) : (s.setPrio id v).thrAt k = s.thrAt k := rfl
@[simp] theorem ipAt_setPrio (id : Nat) (v : Word) (i : Nat) : (s.setPrio id v).ipAt i = s.ipAt i := rfl
@[simp] theorem insvcAt_setPrio (id : Nat) (v : Word) (i : Nat) : (s.setPrio id v).insvcAt i = s.insvcAt i := rfl
@[simp] theorem hsAt_setPrio (id : Nat) (v : Word) (k : Nat) : (s.setPrio id v).hsAt k = s.hsAt k := rfl
@[simp] theorem enAt_setPrio (id : Nat) (v : Word) (k i : Nat) : (s.setPrio id v).enAt k i = s.enAt k i := rfl

@[simp] theorem prioAt_setEnRow (c : Nat) (row : List Bool) (i : Nat) : (s.setEnRow c row).prioAt i = s.prioAt i := rfl
@[simp] theorem thrAt_setEnRow (c : Nat) (row : List Bool) (k : Nat) : (s.setEnRow c row).thrAt k = s.thrAt k := rfl
@[simp] theorem ipAt_setEnRow (c : Nat) (row : List Bool) (i : Nat) : (s.setEnRow c row).ipAt i = s.ipAt i := rfl
@[simp] theorem insvcAt_setEnRow (c : Nat) (row : List Bool) (i : Nat) : (s.setEnRow c row).insvcAt i = s.insvcAt i := rfl
@[simp] theorem hsAt_setEnRow (c : Nat) (row : List Bool) (k : Nat) : (s.setEnRow c row).hsAt k = s.hsAt k := rfl

@[simp] theorem prioAt_setThr (c : Nat) (v : Word) (i : Nat) : (s.setThr c v).prioAt i = s.prioAt i := rfl
@[simp] theorem ipAt_setThr (c : Nat) (v : Word) (i : Nat) : (s.setThr c v).ipAt i = s.ipAt i := rfl
@[simp] theorem insvcAt_setThr (c : Nat) (v : Word) (i : Nat) : (s.setThr c v).insvcAt i = s.insvcAt i := rfl
@[simp] theorem hsAt_setThr (c : Nat) (v : Word) (k : Nat) : (s.setThr c v).hsAt k = s.hsAt k := rfl
@[simp] theorem enAt_setThr (c : Nat) (v : Word) (k i : Nat) : (s.setThr c v).enAt k i = s.enAt k i := rfl

@[simp] theorem prioAt_setIp (id : Nat) (b : Bool) (i : Nat) : (s.setIp id b).prioAt i = s.prioAt i := rfl
@[simp] theorem thrAt_setIp (id : Nat) (b : Bool) (k : Nat) : (s.setIp id b).thrAt k = s.thrAt k := rfl
@[simp] theorem insvcAt_setIp (id : Nat) (b : Bool) (i : Nat) : (s.setIp id b).insvcAt i = s.insvcAt i := rfl
@[simp] theorem hsAt_setIp (id : Nat) (b : Bool) (k : Nat) : (s.setIp id b).hsAt k = s.hsAt k := rfl
@[simp] theorem enAt_setIp (id : Nat) (b : Bool) (k i : Nat) : (s.setIp id b).enAt k i = s.enAt k i := rfl

@[simp] theorem prioAt_setInsvc (id : Nat) (b : Bool) (i : Nat) : (s.setInsvc id b).prioAt i = s.prioAt i := rfl
@[simp] theorem thrAt_setInsvc (id : Nat) (b : Bool) (k : Nat) : (s.setInsvc id b).thrAt k = s.thrAt k := rfl
@[simp] theorem ipAt_setInsvc (id : Nat) (b : Bool) (i : Nat) : (s.setInsvc id b).ipAt i = s.ipAt i := rfl
@[simp] theorem hsAt_setInsvc (id : Nat) (b : Bool) (k : Nat) : (s.setInsvc id b).hsAt k = s.hsAt k := rfl
@[simp] theorem enAt_setInsvc (id : Nat) (b : Bool) (k i : Nat) : (s.setInsvc id b).enAt k i = s.enAt k i := rfl

@[simp] theorem prioAt_setHs (c : Nat) (h : Handshake) (i : Nat) : (s.setHs c h).prioAt i = s.prioAt i := rfl
@[simp] theorem thrAt_setHs (c : Nat) (h : Handshake) (k : Nat) : (s.setHs c h).thrAt k = s.thrAt k := rfl
@[simp] theorem ipAt_setHs (c : Nat) (h : Handshake) (i : Nat) : (s.setHs c h).ipAt i = s.ipAt i := rfl
@[simp] theorem insvcAt_setHs (c : Nat) (h : Handshake) (i : Nat) : (s.setHs c h).insvcAt i = s.insvcAt i := rfl
@[simp] theorem enAt_setHs (c : Nat) (h : Handshake) (k i : Nat) : (s.setHs c h).enAt k i = s.enAt k i := rfl

@[simp] theorem prioAt_respond (v : Option Word) (i : Nat) : (s.respond v).prioAt i = s.prioAt i := rfl
@[simp] theorem thrAt_respond (v : Option Word) (k : Nat) : (s.respond v).thrAt k = s.thrAt k := rfl
@[simp] theorem ipAt_respond (v : Option Word) (i : Nat) : (s.respond v).ipAt i = s.ipAt i := rfl
@[simp] theorem insvcAt_respond (v : Option Word) (i : Nat) : (s.respond v).insvcAt i = s.insvcAt i := rfl
@[simp] theorem hsAt_respond (v : Option Word) (k : Nat) : (s.respond v).hsAt k = s.hsAt k := rfl
@[simp] theorem enAt_respond (v : Option Word) (k i : Nat) : (s.respond v).enAt k i = s.enAt k i := rfl

@[simp] theorem prioAt_countDraw (i : Nat) : s.countDraw.prioAt i = s.prioAt i := rfl
@[simp] theorem thrAt_countDraw (k : Nat) : s.countDraw.thrAt k = s.thrAt k := rfl
@[simp] theorem ipAt_countDraw (i : Nat) : s.countDraw.ipAt i = s.ipAt i := rfl
@[simp] theorem insvcAt_countDraw (i : Nat) : s.countDraw.insvcAt i = s.insvcAt i := rfl
@[simp] theorem hsAt_countDraw (k : Nat) : s.countDraw.hsAt k = s.hsAt k := rfl
@[simp] theorem enAt_countDraw (k i : Nat) : s.countDraw.enAt k i = s.enAt k i := rfl

@[simp] theorem prioAt_withInputs (es : List Event) (i : Nat) : (s.withInputs es).prioAt i = s.prioAt i := rfl
@[simp] theorem thrAt_withInputs (es : List Event) (k : Nat) : (s.withInputs es).thrAt k = s.thrAt k := rfl
@[simp] theorem ipAt_withInputs (es : List Event) (i : Nat) : (s.withInputs es).ipAt i = s.ipAt i := rfl
@[simp] theorem insvcAt_withInputs (es : List Event) (i : Nat) : (s.withInputs es).insvcAt i = s.insvcAt i := rfl
@[simp] theorem hsAt_withInputs (es : List Event) (k : Nat) : (s.withInputs es).hsAt k = s.hsAt k := rfl
@[simp] theorem enAt_withInputs (es : List Event) (k i : Nat) : (s.withInputs es).enAt k i = s.enAt k i := rfl

@[simp] theorem prioAt_takeFault (r : FaultRecord) (i : Nat) : (s.takeFault r).prioAt i = s.prioAt i := rfl
@[simp] theorem thrAt_takeFault (r : FaultRecord) (k : Nat) : (s.takeFault r).thrAt k = s.thrAt k := rfl
@[simp] theorem ipAt_takeFault (r : FaultRecord) (i : Nat) : (s.takeFault r).ipAt i = s.ipAt i := rfl
@[simp] theorem insvcAt_takeFault (r : FaultRecord) (i : Nat) : (s.takeFault r).insvcAt i = s.insvcAt i := rfl
@[simp] theorem hsAt_takeFault (r : FaultRecord) (k : Nat) : (s.takeFault r).hsAt k = s.hsAt k := rfl
@[simp] theorem enAt_takeFault (r : FaultRecord) (k i : Nat) : (s.takeFault r).enAt k i = s.enAt k i := rfl

@[simp] theorem prioAt_writeEnWord (c w : Nat) (data : Word) (i : Nat) : (s.writeEnWord c w data).prioAt i = s.prioAt i := rfl
@[simp] theorem thrAt_writeEnWord (c w : Nat) (data : Word) (k : Nat) : (s.writeEnWord c w data).thrAt k = s.thrAt k := rfl
@[simp] theorem ipAt_writeEnWord (c w : Nat) (data : Word) (i : Nat) : (s.writeEnWord c w data).ipAt i = s.ipAt i := rfl
@[simp] theorem insvcAt_writeEnWord (c w : Nat) (data : Word) (i : Nat) : (s.writeEnWord c w data).insvcAt i = s.insvcAt i := rfl
@[simp] theorem hsAt_writeEnWord (c w : Nat) (data : Word) (k : Nat) : (s.writeEnWord c w data).hsAt k = s.hsAt k := rfl

@[simp] theorem prioAt_retire (c id : Nat) (i : Nat) : (s.retire c id).prioAt i = s.prioAt i := rfl
@[simp] theorem thrAt_retire (c id : Nat) (k : Nat) : (s.retire c id).thrAt k = s.thrAt k := rfl
@[simp] theorem ipAt_retire (c id : Nat) (i : Nat) : (s.retire c id).ipAt i = s.ipAt i := rfl
@[simp] theorem enAt_retire (c id : Nat) (k i : Nat) : (s.retire c id).enAt k i = s.enAt k i := rfl

@[simp] theorem drawn_withInputs (es : List Event) : (s.withInputs es).drawn = s.drawn := rfl
@[simp] theorem withInputs_self : s.withInputs s.inputs = s := rfl

/-! Marking a claim: no source is marked for ID 0. -/

@[simp] theorem markClaimed_zero (c : Nat) : s.markClaimed c 0 = s := rfl

theorem markClaimed_of_ne {c id : Nat} (h : id ≠ 0) :
    s.markClaimed c id = ((s.setIp id false).setInsvc id true).setHs c (.inService id) := by
  simp [markClaimed, h]

@[simp] theorem markClaimed_cfg (c id : Nat) : (s.markClaimed c id).cfg = s.cfg := by
  unfold markClaimed; split <;> rfl
@[simp] theorem markClaimed_prio (c id : Nat) : (s.markClaimed c id).prio = s.prio := by
  unfold markClaimed; split <;> rfl
@[simp] theorem markClaimed_en (c id : Nat) : (s.markClaimed c id).en = s.en := by
  unfold markClaimed; split <;> rfl
@[simp] theorem markClaimed_thr (c id : Nat) : (s.markClaimed c id).thr = s.thr := by
  unfold markClaimed; split <;> rfl
@[simp] theorem markClaimed_fault (c id : Nat) : (s.markClaimed c id).fault = s.fault := by
  unfold markClaimed; split <;> rfl
@[simp] theorem markClaimed_result (c id : Nat) : (s.markClaimed c id).result = s.result := by
  unfold markClaimed; split <;> rfl
@[simp] theorem markClaimed_draws (c id : Nat) : (s.markClaimed c id).draws = s.draws := by
  unfold markClaimed; split <;> rfl
@[simp] theorem markClaimed_inputs (c id : Nat) : (s.markClaimed c id).inputs = s.inputs := by
  unfold markClaimed; split <;> rfl
@[simp] theorem prioAt_markClaimed (c id : Nat) (i : Nat) : (s.markClaimed c id).prioAt i = s.prioAt i := by
  unfold markClaimed; split <;> rfl
@[simp] theorem thrAt_markClaimed (c id : Nat) (k : Nat) : (s.markClaimed c id).thrAt k = s.thrAt k := by
  unfold markClaimed; split <;> rfl
@[simp] theorem enAt_markClaimed (c id : Nat) (k i : Nat) : (s.markClaimed c id).enAt k i = s.enAt k i := by
  unfold markClaimed; split <;> rfl

end Sys2Proof.Machine.State
end

