-- ==== Sys2Proof/Laws/Ops.lean ====
section
/-!
SUPPORT. Read after write for the lists of the state, the guard of host transactions, and what keeps the shape.
-/

namespace Sys2Proof.Machine

section Bank
variable {α : Type} (d : α) (l : List α) (v : α)

@[simp] theorem srcGet_zero : srcGet d l 0 = d := rfl

@[simp] theorem srcGet_succ (k : Nat) : srcGet d l (k + 1) = l.getD k d := rfl

@[simp] theorem length_srcSet (id : Nat) : (srcSet l id v).length = l.length := by
  cases id <;> simp [srcSet]

theorem srcGet_srcSet (id i : Nat) :
    srcGet d (srcSet l id v) i = if i = id ∧ 1 ≤ id ∧ id ≤ l.length then v else srcGet d l i := by
  cases id with
  | zero => simp [srcSet]
  | succ k =>
    cases i with
    | zero => simp
    | succ j =>
      by_cases hj : j = k
      · subst hj
        by_cases hl : j < l.length
        · simp [srcSet, List.getD_eq_getElem?_getD, hl, Nat.succ_le_of_lt hl]
        · simp [srcSet, List.getD_eq_getElem?_getD, hl]
      · simp [srcSet, List.getD_eq_getElem?_getD, hj, Ne.symm hj]

/-- Outside `1..length` there is no entry. -/
theorem srcGet_outside {i : Nat} (h : i = 0 ∨ l.length < i) : srcGet d l i = d := by
  cases i with
  | zero => rfl
  | succ j =>
    have hj : l.length ≤ j := by omega
    simp [List.getD_eq_getElem?_getD, hj]

theorem getD_set (k c : Nat) :
    (l.set c v).getD k d = if k = c ∧ c < l.length then v else l.getD k d := by
  by_cases hk : k = c
  · subst hk
    by_cases hl : k < l.length <;> simp [List.getD_eq_getElem?_getD, hl]
  · simp [List.getD_eq_getElem?_getD, hk, Ne.symm hk]

theorem srcGet_map_range' (f : Nat → α) (n i : Nat) :
    srcGet d ((List.range' 1 n).map f) i = if 1 ≤ i ∧ i ≤ n then f i else d := by
  cases i with
  | zero => simp
  | succ j =>
    by_cases hj : j < n
    · simp [List.getD_eq_getElem?_getD, hj, Nat.succ_le_of_lt hj, Nat.add_comm]
    · simp [List.getD_eq_getElem?_getD, hj]

theorem srcGet_replicate (n i : Nat) : srcGet d (List.replicate n d) i = d := by
  cases i with
  | zero => rfl
  | succ j => simp [List.getD_eq_getElem?_getD, List.getElem?_replicate]; split <;> rfl

end Bank

theorem isSource_iff {cfg : Config} {id : Nat} : cfg.isSource id = true ↔ 1 ≤ id ∧ id ≤ cfg.numSources := by
  simp [Config.isSource]

theorem isContext_iff {cfg : Config} {c : Nat} : cfg.isContext c = true ↔ c < cfg.numHarts := by
  simp [Config.isContext]

theorem isEnableWord_iff {cfg : Config} {w : Nat} : cfg.isEnableWord w = true ↔ w < cfg.numEnableWords := by
  simp [Config.isEnableWord]

/-- A source's enable bit lies in an implemented word (rule R9). -/
theorem isEnableWord_of_isSource {cfg : Config} {id : Nat} (h : cfg.isSource id = true) :
    cfg.isEnableWord (id / 32) = true := by
  rw [isSource_iff] at h
  rw [isEnableWord_iff, Config.numEnableWords]
  omega

section Accessors
variable (s : State)

theorem prioAt_setPrio (id i : Nat) (v : Word) :
    (s.setPrio id v).prioAt i = if i = id ∧ 1 ≤ id ∧ id ≤ s.prio.length then v else s.prioAt i :=
  srcGet_srcSet _ _ _ id i

theorem ipAt_setIp (id i : Nat) (b : Bool) :
    (s.setIp id b).ipAt i = if i = id ∧ 1 ≤ id ∧ id ≤ s.ip.length then b else s.ipAt i :=
  srcGet_srcSet _ _ _ id i

theorem insvcAt_setInsvc (id i : Nat) (b : Bool) :
    (s.setInsvc id b).insvcAt i = if i = id ∧ 1 ≤ id ∧ id ≤ s.insvc.length then b else s.insvcAt i :=
  srcGet_srcSet _ _ _ id i

theorem thrAt_setThr (c k : Nat) (v : Word) :
    (s.setThr c v).thrAt k = if k = c ∧ c < s.thr.length then v else s.thrAt k :=
  getD_set _ _ _ k c

theorem hsAt_setHs (c k : Nat) (h : Handshake) :
    (s.setHs c h).hsAt k = if k = c ∧ c < s.hs.length then h else s.hsAt k :=
  getD_set _ _ _ k c

theorem ipAt_markClaimed (c id i : Nat) (h : id ≠ 0) :
    (s.markClaimed c id).ipAt i = if i = id ∧ 1 ≤ id ∧ id ≤ s.ip.length then false else s.ipAt i := by
  rw [State.markClaimed_of_ne s h]; exact ipAt_setIp s id i false

theorem insvcAt_markClaimed (c id i : Nat) (h : id ≠ 0) :
    (s.markClaimed c id).insvcAt i = if i = id ∧ 1 ≤ id ∧ id ≤ s.insvc.length then true else s.insvcAt i := by
  rw [State.markClaimed_of_ne s h]; exact insvcAt_setInsvc (s.setIp id false) id i true

theorem hsAt_markClaimed (c id k : Nat) (h : id ≠ 0) :
    (s.markClaimed c id).hsAt k = if k = c ∧ c < s.hs.length then .inService id else s.hsAt k := by
  rw [State.markClaimed_of_ne s h]; exact hsAt_setHs ((s.setIp id false).setInsvc id true) c k _

theorem insvcAt_retire (c id i : Nat) :
    (s.retire c id).insvcAt i = if i = id ∧ 1 ≤ id ∧ id ≤ s.insvc.length then false else s.insvcAt i :=
  insvcAt_setInsvc s id i false

theorem hsAt_retire (c id k : Nat) :
    (s.retire c id).hsAt k = if k = c ∧ c < s.hs.length then .idle else s.hsAt k :=
  hsAt_setHs (s.setInsvc id false) c k _

/-- A context outside the list of the state is idle. -/
theorem hsAt_outside {c : Nat} (h : s.hs.length ≤ c) : s.hsAt c = .idle := by
  simp [State.hsAt, List.getD_eq_getElem?_getD, h]

/-- The handshake of a context inside the list is an entry of it. -/
theorem hsAt_mem {c : Nat} (h : c < s.hs.length) : s.hsAt c ∈ s.hs := by
  simp [State.hsAt, List.getD_eq_getElem?_getD, h]

/-- A handshake that holds an ID is an entry of the list. -/
theorem mem_of_hsAt_inService {c id : Nat} (h : s.hsAt c = .inService id) :
    c < s.hs.length ∧ Handshake.inService id ∈ s.hs := by
  by_cases hc : c < s.hs.length
  · exact ⟨hc, h ▸ hsAt_mem s hc⟩
  · rw [hsAt_outside s (by omega)] at h; cases h

end Accessors

/-! The guard of host transactions. -/

theorem perform_of_clean {s : State} (t : State) (h : s.fault = none) : perform s t = .next t := by
  simp [perform, h]

theorem perform_of_faulted {s : State} (t : State) {r : FaultRecord} (h : s.fault = some r) :
    perform s t = .fault (.halted r) := by
  simp [perform, h]

/-- All that the guard can do when it answers a next state. -/
theorem perform_next {s t u : State} (h : perform s t = .next u) : s.fault = none ∧ u = t := by
  cases hf : s.fault with
  | none => rw [perform_of_clean t hf] at h; cases h; exact ⟨rfl, rfl⟩
  | some r => rw [perform_of_faulted t hf] at h; cases h

/-- The guard never refuses. -/
theorem perform_ne_refused {s t : State} {r : Refusal} : perform s t ≠ .refused r := by
  cases hf : s.fault with
  | none => rw [perform_of_clean t hf]; nofun
  | some r => rw [perform_of_faulted t hf]; nofun

end Sys2Proof.Machine
end

