-- ==== Sys2Proof/Laws/Arbiter.lean ====
section
/-!
SUPPORT. What eligibility, the candidate set and the priority encoder mean (rule R132 to rule R136).
-/

namespace Sys2Proof.Machine

theorem eligible_iff (s : State) (c id : Nat) :
    eligible s c id = true ↔
      s.cfg.isSource id = true ∧ s.ipAt id = true ∧ s.enAt c id = true
        ∧ (s.thrAt c).toNat < (s.prioAt id).toNat := by
  simp [eligible, and_assoc]

theorem mem_eligibles (s : State) (c id : Nat) : id ∈ eligibles s c ↔ eligible s c id = true := by
  rw [eligibles, List.mem_filter, List.mem_range'_1]
  refine ⟨fun h => h.2, fun h => ⟨?_, h⟩⟩
  have := isSource_iff.mp ((eligible_iff s c id).mp h).1
  omega

theorem le_foldl_max (l : List Nat) (a : Nat) : a ≤ l.foldl max a := by
  induction l generalizing a with
  | nil => exact Nat.le_refl a
  | cons x l ih => exact Nat.le_trans (Nat.le_max_left a x) (ih (max a x))

theorem le_foldl_max_of_mem (l : List Nat) (a x : Nat) (h : x ∈ l) : x ≤ l.foldl max a := by
  induction l generalizing a with
  | nil => cases h
  | cons y l ih =>
    rcases List.mem_cons.mp h with rfl | h
    · exact Nat.le_trans (Nat.le_max_right a x) (le_foldl_max l _)
    · exact ih (max a y) h

theorem foldl_max_mem (l : List Nat) (a : Nat) : l.foldl max a = a ∨ l.foldl max a ∈ l := by
  induction l generalizing a with
  | nil => exact Or.inl rfl
  | cons x l ih =>
    rcases ih (max a x) with h | h
    · rcases Nat.le_total a x with hx | hx
      · right; rw [List.foldl_cons, h, Nat.max_eq_right hx]; exact List.mem_cons_self
      · left; rw [List.foldl_cons, h, Nat.max_eq_left hx]
    · right; simp [h]

/-- No eligible source has a priority above the top priority (rule R133). -/
theorem prio_le_topPriority (s : State) (c id : Nat) (h : eligible s c id = true) :
    (s.prioAt id).toNat ≤ topPriority s c :=
  le_foldl_max_of_mem _ _ _ (List.mem_map.mpr ⟨id, (mem_eligibles s c id).mpr h, rfl⟩)

/-- When some source is eligible, some eligible source has the top priority (rule R133). -/
theorem exists_topPriority (s : State) (c : Nat) {id : Nat} (h : eligible s c id = true) :
    ∃ m, eligible s c m = true ∧ (s.prioAt m).toNat = topPriority s c := by
  rcases foldl_max_mem ((eligibles s c).map (fun i => (s.prioAt i).toNat)) 0 with h0 | hm
  · have h1 := prio_le_topPriority s c id h
    have h2 := ((eligible_iff s c id).mp h).2.2.2
    rw [topPriority, h0] at h1; omega
  · obtain ⟨m, hm, he⟩ := List.mem_map.mp hm
    exact ⟨m, (mem_eligibles s c m).mp hm, he⟩

/-- Membership in the candidate set (rule R133). -/
theorem mem_candidates (s : State) (c id : Nat) :
    id ∈ candidates s c ↔
      eligible s c id = true ∧ ∀ j, eligible s c j = true → (s.prioAt j).toNat ≤ (s.prioAt id).toNat := by
  rw [candidates, List.mem_filter, mem_eligibles, decide_eq_true_iff]
  refine and_congr_right fun h => ⟨fun ht j hj => ht ▸ prio_le_topPriority s c j hj, fun hall => ?_⟩
  obtain ⟨m, hm, he⟩ := exists_topPriority s c h
  exact Nat.le_antisymm (prio_le_topPriority s c id h) (he ▸ hall m hm)

theorem candidates_eq_nil_iff (s : State) (c : Nat) : candidates s c = [] ↔ eligibles s c = [] := by
  constructor
  · intro h
    by_contra hne
    obtain ⟨id, hid⟩ := List.exists_mem_of_ne_nil _ hne
    obtain ⟨m, hm, he⟩ := exists_topPriority s c ((mem_eligibles s c id).mp hid)
    have : m ∈ candidates s c := by
      rw [candidates, List.mem_filter, mem_eligibles]; exact ⟨hm, by simp [he]⟩
    simp [h] at this
  · intro h; simp [candidates, h]

/-- A choice from a nonempty list is one of its elements. -/
theorem choose_mem {l : List Nat} (k : Word) (h : l ≠ []) : choose l k ∈ l := by
  have hlt : k.toNat % l.length < l.length := Nat.mod_lt _ (List.length_pos_of_ne_nil h)
  simp [choose, List.getD_eq_getElem?_getD, hlt]

/-- The one spec of the priority encoder (rule R134): 0 on the empty candidate set, otherwise a candidate. -/
theorem pick_spec (s : State) (c : Nat) (k : Word) :
    (candidates s c = [] ∧ pick s c k = 0) ∨ (candidates s c ≠ [] ∧ pick s c k ∈ candidates s c) := by
  by_cases h : candidates s c = []
  · exact Or.inl ⟨h, by simp [pick, h]⟩
  · refine Or.inr ⟨h, ?_⟩
    have hne : (candidates s c).isEmpty = false := by simp [h]
    rw [pick, hne]
    cases s.cfg.tieBreak with
    | any => exact choose_mem k h
    | lowestId =>
      obtain ⟨m, hm⟩ := Option.ne_none_iff_exists'.mp (mt List.min?_eq_none_iff.mp h)
      simpa [hm] using List.min?_mem hm

/-- A picked source is eligible, hence a source. -/
theorem eligible_of_pick {s : State} {c : Nat} {k : Word} (h : pick s c k ≠ 0) :
    eligible s c (pick s c k) = true := by
  rcases pick_spec s c k with ⟨_, h0⟩ | ⟨_, hm⟩
  · exact absurd h0 h
  · exact ((mem_candidates s c _).mp hm).1

theorem isSource_of_pick {s : State} {c : Nat} {k : Word} (h : pick s c k ≠ 0) :
    s.cfg.isSource (pick s c k) = true := ((eligible_iff s c _).mp (eligible_of_pick h)).1

/-- The encoder answers 0 exactly when no source is eligible (rule R134, rule R136). -/
theorem pick_eq_zero_iff (s : State) (c : Nat) (k : Word) : pick s c k = 0 ↔ eligibles s c = [] := by
  rw [← candidates_eq_nil_iff]
  rcases pick_spec s c k with ⟨h, h0⟩ | ⟨h, hm⟩
  · simp [h, h0]
  · refine iff_of_false (fun h0 => ?_) h
    have := isSource_iff.mp ((eligible_iff s c _).mp ((mem_candidates s c _).mp hm).1).1
    omega

theorem irqOut_iff (s : State) (c : Nat) : irqOut s c = true ↔ ∃ id, eligible s c id = true := by
  rw [irqOut, Bool.not_eq_true', List.isEmpty_eq_false_iff_exists_mem]
  exact exists_congr fun id => mem_eligibles s c id

end Sys2Proof.Machine
end

