-- ==== Sys2Proof/Laws/Operands.lean ====
section
/-!
SUPPORT. The bits of an enable word as read and as written (rule R102, rule R103), and the offset at which an access is
presented (rule R51).
-/

namespace Sys2Proof.Machine

theorem testBit_natOfBits (f : Nat → Bool) (n b : Nat) :
    (natOfBits f n).testBit b = (decide (b < n) && f b) := by
  induction n with
  | zero => simp [natOfBits]
  | succ n ih =>
    rw [natOfBits, Nat.testBit_or, ih, Nat.testBit_shiftLeft]
    by_cases hlt : b < n
    · simp [hlt, Nat.not_le.mpr hlt, Nat.lt_succ_of_lt hlt]
    · by_cases heq : b = n
      · subst heq; cases f b <;> simp
      · have h1 : 0 < b - n := by omega
        have h2 : (f n).toNat.testBit (b - n) = false :=
          Nat.testBit_lt_two_pow (Nat.lt_of_lt_of_le (Bool.toNat_lt (f n)) (Nat.pow_le_pow_right (n := 2) (by omega) h1))
        have h3 : ¬ b < n + 1 := by omega
        simp [hlt, h2, h3]

/-- Bit `b` of `wordOfBits f` is `f b`. -/
@[simp] theorem getLsbD_wordOfBits (f : Nat → Bool) (b : Nat) :
    (wordOfBits f).getLsbD b = (decide (b < 32) && f b) := by
  rw [wordOfBits, BitVec.getLsbD_ofNat, testBit_natOfBits]
  by_cases hb : b < 32 <;> simp [hb]

/-- A bit of an enable word as read (rule R102). -/
theorem getLsbD_enWord (s : State) (c w : Nat) (k : Word) {b : Nat} (hb : b < 32) :
    (s.enWord c w k).getLsbD b =
      if s.cfg.isSource (32 * w + b) then s.enAt c (32 * w + b) else k.getLsbD b := by
  rw [State.enWord, getLsbD_wordOfBits, decide_eq_true hb, Bool.true_and]; rfl

/-- The bit of source `id` in its enable word as read (rule R76, rule R102). -/
theorem getLsbD_enWord_source (s : State) (c : Nat) (k : Word) {id : Nat} (h : s.cfg.isSource id = true) :
    (s.enWord c (id / 32) k).getLsbD (id % 32) = s.enAt c id := by
  rw [getLsbD_enWord s c _ k (Nat.mod_lt _ (by omega)), Nat.div_add_mod, if_pos h]

/-- Every enable bit after a write of an enable word (rule R103). -/
theorem enAt_writeEnWord (s : State) (c w : Nat) (data : Word) (k id : Nat) (hc : c < s.en.length) :
    (s.writeEnWord c w data).enAt k id =
      if k = c then (if s.cfg.isSource id then s.enBitAfter c w data id else false) else s.enAt k id := by
  by_cases hk : k = c
  · subst hk
    rw [State.enAt, State.writeEnWord_en, getD_set, if_pos ⟨rfl, hc⟩, srcGet_map_range', if_pos rfl]
    by_cases h : s.cfg.isSource id = true
    · rw [if_pos (isSource_iff.mp h), if_pos h]
    · rw [if_neg (fun h' => h (isSource_iff.mpr h')), if_neg h]
  · rw [State.enAt, State.writeEnWord_en, getD_set, if_neg (fun h => hk h.1), if_neg hk, State.enAt]

/-- An access in the block's window is presented at its distance from `BASE` (rule R51). -/
theorem present_inWindow (cfg : Config) (a : BusAccess) {off : Nat} (h : a.place = cfg.base + off)
    (ho : off < 2 ^ 32) : present cfg a = some (a.moveTo (BitVec.ofNat 32 off)) := by
  have h1 : cfg.base + off - cfg.base = off := by omega
  simp only [present, presentOff, h, h1]
  rw [if_pos ⟨by omega, ho⟩]; rfl

/-- An access at `2^32` or more from `BASE` is presented at no offset (log entry 10). -/
theorem present_beyond (cfg : Config) (a : BusAccess) {off : Nat} (h : a.place = cfg.base + off) (ho : 2 ^ 32 ≤ off) :
    present cfg a = none := by
  simp only [present, presentOff, h]
  rw [if_neg (by omega)]; rfl

end Sys2Proof.Machine
end

