-- ==== Sys2Proof/Laws/Exec.lean ====
section
/-!
SUPPORT. One inversion lemma per meaning: all that it can do when it answers a next state. And the same for a step.
-/

namespace Sys2Proof.Machine

theorem execPrioRd_next {id : Nat} {s t : State} (h : execPrioRd id s = .next t) :
    s.fault = none ∧
      ((s.cfg.isSource id = true ∧ t = s.respond (some (s.prioAt id))) ∨
       (s.cfg.isSource id = false ∧ t = s.takeFault (.unmapped .read (offWord (s.cfg.prioOff id))))) := by
  obtain ⟨hf, rfl⟩ := perform_next h
  refine ⟨hf, ?_⟩
  split <;> simp_all

theorem execPrioWr_next {id : Nat} {data : Word} {s t : State} (h : execPrioWr id data s = .next t) :
    s.fault = none ∧
      ((s.cfg.isSource id = true ∧ data.toNat ≤ s.cfg.maxPriority ∧ t = (s.setPrio id data).respond none) ∨
       ∃ r, t = s.takeFault r) := by
  obtain ⟨hf, rfl⟩ := perform_next h
  refine ⟨hf, ?_⟩
  split
  · split
    · exact Or.inr ⟨_, rfl⟩
    · exact Or.inl ⟨‹_›, Nat.not_lt.mp ‹_›, rfl⟩
  · exact Or.inr ⟨_, rfl⟩

theorem execEnRd_next {c w : Nat} {s t : State} (h : execEnRd c w s = .next t) :
    s.fault = none ∧
      ((s.cfg.isContext c = true ∧ s.cfg.isEnableWord w = true ∧
          t = s.countDraw.respond (some (s.enWord c w s.drawn))) ∨
       ∃ r, t = s.takeFault r) := by
  obtain ⟨hf, rfl⟩ := perform_next h
  refine ⟨hf, ?_⟩
  split
  · rename_i hc
    rw [Bool.and_eq_true] at hc
    exact Or.inl ⟨hc.1, hc.2, rfl⟩
  · exact Or.inr ⟨_, rfl⟩

theorem execEnWr_next {c w : Nat} {data : Word} {s t : State} (h : execEnWr c w data s = .next t) :
    s.fault = none ∧
      ((s.cfg.isContext c = true ∧ s.cfg.isEnableWord w = true ∧ t = (s.writeEnWord c w data).respond none) ∨
       ∃ r, t = s.takeFault r) := by
  obtain ⟨hf, rfl⟩ := perform_next h
  refine ⟨hf, ?_⟩
  split
  · rename_i hc
    rw [Bool.and_eq_true] at hc
    exact Or.inl ⟨hc.1, hc.2, rfl⟩
  · exact Or.inr ⟨_, rfl⟩

theorem execThrRd_next {c : Nat} {s t : State} (h : execThrRd c s = .next t) :
    s.fault = none ∧
      ((s.cfg.isContext c = true ∧ t = s.respond (some (s.thrAt c))) ∨ ∃ r, t = s.takeFault r) := by
  obtain ⟨hf, rfl⟩ := perform_next h
  refine ⟨hf, ?_⟩
  split
  · exact Or.inl ⟨‹_›, rfl⟩
  · exact Or.inr ⟨_, rfl⟩

theorem execThrWr_next {c : Nat} {data : Word} {s t : State} (h : execThrWr c data s = .next t) :
    s.fault = none ∧
      ((s.cfg.isContext c = true ∧ data.toNat ≤ s.cfg.maxPriority ∧ t = (s.setThr c data).respond none) ∨
       ∃ r, t = s.takeFault r) := by
  obtain ⟨hf, rfl⟩ := perform_next h
  refine ⟨hf, ?_⟩
  split
  · split
    · exact Or.inr ⟨_, rfl⟩
    · exact Or.inl ⟨‹_›, Nat.not_lt.mp ‹_›, rfl⟩
  · exact Or.inr ⟨_, rfl⟩

theorem execClaim_next {c : Nat} {s t : State} (h : execClaim c s = .next t) :
    s.fault = none ∧
      ((s.cfg.isContext c = true ∧ s.hsAt c = .idle ∧
          t = (s.markClaimed c (pick s c s.drawn)).countDraw.respond (some (BitVec.ofNat 32 (pick s c s.drawn)))) ∨
       (∃ x, s.cfg.isContext c = true ∧ s.hsAt c = .inService x ∧ t = s.takeFault (.nestedClaim c x)) ∨
       (s.cfg.isContext c = false ∧ t = s.takeFault (.unmapped .read (offWord (s.cfg.clmOff c))))) := by
  obtain ⟨hf, rfl⟩ := perform_next h
  refine ⟨hf, ?_⟩
  by_cases hc : s.cfg.isContext c = true
  · rw [if_pos hc]
    cases hh : s.hsAt c with
    | idle => exact Or.inl ⟨hc, rfl, rfl⟩
    | inService x => exact Or.inr (Or.inl ⟨x, hc, rfl, rfl⟩)
  · rw [if_neg hc]
    exact Or.inr (Or.inr ⟨Bool.not_eq_true _ ▸ hc, rfl⟩)

theorem execComplete_next {c : Nat} {data : Word} {s t : State} (h : execComplete c data s = .next t) :
    s.fault = none ∧
      ((s.cfg.isContext c = true ∧ s.hsAt c = .inService data.toNat ∧
          (s.cfg.completeRequiresEnable && !s.enAt c data.toNat) = false ∧
          t = (s.retire c data.toNat).respond none) ∨
       (s.cfg.isContext c = true ∧ s.hsAt c = .inService data.toNat ∧
          (s.cfg.completeRequiresEnable && !s.enAt c data.toNat) = true ∧ t = s.respond none) ∨
       ∃ r, t = s.takeFault r) := by
  obtain ⟨hf, rfl⟩ := perform_next h
  refine ⟨hf, ?_⟩
  by_cases hc : s.cfg.isContext c = true
  · by_cases hh : s.hsAt c = .inService data.toNat
    · by_cases hi : (s.cfg.completeRequiresEnable && !s.enAt c data.toNat) = true
      · exact Or.inr (Or.inl ⟨hc, hh, hi, by rw [if_pos hc, if_pos hh, if_pos hi]⟩)
      · exact Or.inl ⟨hc, hh, Bool.not_eq_true _ ▸ hi, by rw [if_pos hc, if_pos hh, if_neg hi]⟩
    · exact Or.inr (Or.inr ⟨.badComplete c data (s.hsAt c), by rw [if_pos hc, if_neg hh]⟩)
  · exact Or.inr (Or.inr ⟨_, by rw [if_neg hc]⟩)

theorem execRaise_next {id : Nat} {s t : State} (h : execRaise id s = .next t) :
    s.cfg.isSource id = true ∧
      ((s.insvcAt id = false ∧ s.ipAt id = false ∧ t = (s.setIp id true).respond none) ∨
       ((s.insvcAt id = true ∨ s.ipAt id = true) ∧ t = s.respond none)) := by
  unfold execRaise at h
  split at h
  · rename_i hs
    cases h
    refine ⟨hs, ?_⟩
    cases h1 : s.insvcAt id <;> cases h2 : s.ipAt id <;> simp
  · cases h

theorem execBadAccess_next {a : Transaction} {s t : State} (h : execBadAccess a s = .next t) :
    s.fault = none ∧ t = s.takeFault (.badAccess a.kind a.size a.place) := perform_next h

theorem execUnmapped_next {a : Transaction} {s t : State} (h : execUnmapped a s = .next t) :
    s.fault = none ∧ t = s.takeFault (.unmapped a.kind a.place) := perform_next h

/-- Every instruction answers a next state while no fault is recorded, but RAISE of no source line. -/
theorem exec_completes {s : State} (i : Instr) (hf : s.fault = none) (hr : ∀ id, i = .raise id → s.cfg.isSource id = true) :
    ∃ t, exec i s = .next t := by
  cases i with
  | raise id => exact ⟨_, by rw [exec, execRaise, if_pos (hr id rfl)]⟩
  | prioRd => exact ⟨_, perform_of_clean _ hf⟩
  | prioWr => exact ⟨_, perform_of_clean _ hf⟩
  | enRd => exact ⟨_, perform_of_clean _ hf⟩
  | enWr => exact ⟨_, perform_of_clean _ hf⟩
  | thrRd => exact ⟨_, perform_of_clean _ hf⟩
  | thrWr => exact ⟨_, perform_of_clean _ hf⟩
  | claim => exact ⟨_, perform_of_clean _ hf⟩
  | complete => exact ⟨_, perform_of_clean _ hf⟩
  | badAccess => exact ⟨_, perform_of_clean _ hf⟩
  | unmapped => exact ⟨_, perform_of_clean _ hf⟩

/-- All that a step can do when it answers a next state: the first event of the schedule is performed on the state
whose schedule is the rest. -/
theorem step_next {s t : State} (h : step s = .next t) :
    s.cfg.wf = true ∧ ∃ e es, s.inputs = e :: es ∧ runEvent e (s.withInputs es) = .next t := by
  unfold step at h
  split at h
  · rename_i hw
    refine ⟨hw, ?_⟩
    cases hi : s.inputs with
    | nil => rw [hi] at h; cases h
    | cons e es => rw [hi] at h; exact ⟨e, es, rfl, h⟩
  · cases h

/-- All that an event can do when it answers a next state. -/
theorem runEvent_next {e : Event} {s t : State} (h : runEvent e s = .next t) :
    (∃ a r, e = .host a ∧ present s.cfg a = some r ∧ exec (decode s.cfg (.host r)) s = .next t) ∨
    (∃ id, e = .source id ∧ exec (.raise id) s = .next t) ∨ (e = .reset ∧ t = resetBlock s) := by
  cases e with
  | host a =>
    cases hp : present s.cfg a with
    | none => simp [runEvent, hp] at h
    | some r => exact Or.inl ⟨a, r, rfl, hp, by simpa [runEvent, hp, request] using h⟩
  | source id => exact Or.inr (Or.inl ⟨id, rfl, h⟩)
  | reset => exact Or.inr (Or.inr ⟨rfl, by cases h; rfl⟩)

/-- A decoded transaction is never a source event. -/
theorem decodeTransaction_ne_raise (cfg : Config) (a : Transaction) (id : Nat) : decodeTransaction cfg a ≠ .raise id := by
  have hr : ∀ g, readInstr g ≠ .raise id := by intro g; cases g <;> nofun
  have hw : ∀ d g, writeInstr d g ≠ .raise id := by intro d g; cases g <;> nofun
  cases a with
  | fetch => nofun
  | read size off =>
    simp only [decodeTransaction]
    split
    · nofun
    · split
      · nofun
      · split
        · nofun
        · exact hr _
  | write size off data =>
    simp only [decodeTransaction]
    split
    · nofun
    · split
      · nofun
      · split
        · nofun
        · exact hw _ _

end Sys2Proof.Machine
end

