-- ==== Sys2Proof/Laws/Completes.lean ====
section
/-!
SUPPORT. The next state of each meaning, case by case, on a state with no fault recorded. Proofs cite these instead of
unfolding a meaning.
-/

namespace Sys2Proof.Machine

/-- Taking a fault writes the record and nothing else (rule R170). -/
theorem tookFault_takeFault (s : State) (r : FaultRecord) : TookFault s (s.takeFault r) r :=
  ⟨rfl, rfl, ⟨rfl, rfl, rfl⟩, ⟨rfl, rfl, rfl⟩, ⟨rfl, rfl⟩, rfl⟩

theorem isSource_of {cfg : Config} {id : Nat} (h1 : 1 ≤ id) (h2 : id ≤ cfg.numSources) : cfg.isSource id = true :=
  isSource_iff.mpr ⟨h1, h2⟩

theorem not_isSource_of {cfg : Config} {id : Nat} (h : id = 0 ∨ cfg.numSources < id) : cfg.isSource id = false := by
  rw [← Bool.not_eq_true, isSource_iff]; omega

theorem not_isContext_of {cfg : Config} {c : Nat} (h : cfg.numHarts ≤ c) : cfg.isContext c = false := by
  rw [← Bool.not_eq_true, isContext_iff]; omega

section
variable {s : State} (hf : s.fault = none)
include hf

theorem execPrioRd_source {id : Nat} (h : s.cfg.isSource id = true) :
    execPrioRd id s = .next (s.respond (some (s.prioAt id))) := by
  simp [execPrioRd, perform_of_clean _ hf, h]

theorem execPrioRd_unmapped {id : Nat} (h : s.cfg.isSource id = false) :
    execPrioRd id s = .next (s.takeFault (.unmapped .read (offWord (s.cfg.prioOff id)))) := by
  simp [execPrioRd, perform_of_clean _ hf, h]

theorem execPrioWr_legal {id : Nat} {p : Word} (h : s.cfg.isSource id = true) (hp : p.toNat ≤ s.cfg.maxPriority) :
    execPrioWr id p s = .next ((s.setPrio id p).respond none) := by
  simp [execPrioWr, perform_of_clean _ hf, h, Nat.not_lt.mpr hp]

theorem execPrioWr_illegal {id : Nat} {p : Word} (h : s.cfg.isSource id = true) (hp : s.cfg.maxPriority < p.toNat) :
    execPrioWr id p s = .next (s.takeFault (.illegalValue (offWord (s.cfg.prioOff id)) p)) := by
  simp [execPrioWr, perform_of_clean _ hf, h, hp]

theorem execPrioWr_unmapped {id : Nat} {p : Word} (h : s.cfg.isSource id = false) :
    execPrioWr id p s = .next (s.takeFault (.unmapped .write (offWord (s.cfg.prioOff id)))) := by
  simp [execPrioWr, perform_of_clean _ hf, h]

theorem execEnRd_word {c w : Nat} (hc : s.cfg.isContext c = true) (hw : s.cfg.isEnableWord w = true) :
    execEnRd c w s = .next (s.countDraw.respond (some (s.enWord c w s.drawn))) := by
  simp [execEnRd, perform_of_clean _ hf, hc, hw]

theorem execEnRd_unmapped {c w : Nat} (h : (s.cfg.isContext c && s.cfg.isEnableWord w) = false) :
    execEnRd c w s = .next (s.takeFault (.unmapped .read (offWord (s.cfg.enwOff c w)))) := by
  rw [execEnRd, perform_of_clean _ hf, h]; rfl

theorem execEnWr_word {c w : Nat} {data : Word} (hc : s.cfg.isContext c = true) (hw : s.cfg.isEnableWord w = true) :
    execEnWr c w data s = .next ((s.writeEnWord c w data).respond none) := by
  simp [execEnWr, perform_of_clean _ hf, hc, hw]

theorem execEnWr_unmapped {c w : Nat} {data : Word} (h : (s.cfg.isContext c && s.cfg.isEnableWord w) = false) :
    execEnWr c w data s = .next (s.takeFault (.unmapped .write (offWord (s.cfg.enwOff c w)))) := by
  rw [execEnWr, perform_of_clean _ hf, h]; rfl

theorem execThrRd_context {c : Nat} (h : s.cfg.isContext c = true) :
    execThrRd c s = .next (s.respond (some (s.thrAt c))) := by
  simp [execThrRd, perform_of_clean _ hf, h]

theorem execThrRd_unmapped {c : Nat} (h : s.cfg.isContext c = false) :
    execThrRd c s = .next (s.takeFault (.unmapped .read (offWord (s.cfg.thrOff c)))) := by
  simp [execThrRd, perform_of_clean _ hf, h]

theorem execThrWr_legal {c : Nat} {v : Word} (h : s.cfg.isContext c = true) (hv : v.toNat ≤ s.cfg.maxPriority) :
    execThrWr c v s = .next ((s.setThr c v).respond none) := by
  simp [execThrWr, perform_of_clean _ hf, h, Nat.not_lt.mpr hv]

theorem execThrWr_illegal {c : Nat} {v : Word} (h : s.cfg.isContext c = true) (hv : s.cfg.maxPriority < v.toNat) :
    execThrWr c v s = .next (s.takeFault (.illegalValue (offWord (s.cfg.thrOff c)) v)) := by
  simp [execThrWr, perform_of_clean _ hf, h, hv]

theorem execThrWr_unmapped {c : Nat} {v : Word} (h : s.cfg.isContext c = false) :
    execThrWr c v s = .next (s.takeFault (.unmapped .write (offWord (s.cfg.thrOff c)))) := by
  simp [execThrWr, perform_of_clean _ hf, h]

theorem execClaim_idle {c : Nat} (h : s.cfg.isContext c = true) (hi : s.hsAt c = .idle) :
    execClaim c s = .next
      ((s.markClaimed c (pick s c s.drawn)).countDraw.respond (some (BitVec.ofNat 32 (pick s c s.drawn)))) := by
  simp [execClaim, perform_of_clean _ hf, h, hi]

theorem execClaim_nested {c x : Nat} (h : s.cfg.isContext c = true) (hi : s.hsAt c = .inService x) :
    execClaim c s = .next (s.takeFault (.nestedClaim c x)) := by
  simp [execClaim, perform_of_clean _ hf, h, hi]

theorem execClaim_unmapped {c : Nat} (h : s.cfg.isContext c = false) :
    execClaim c s = .next (s.takeFault (.unmapped .read (offWord (s.cfg.clmOff c)))) := by
  simp [execClaim, perform_of_clean _ hf, h]

theorem execComplete_taken {c : Nat} {v : Word} (h : s.cfg.isContext c = true) (hi : s.hsAt c = .inService v.toNat)
    (he : s.cfg.completeRequiresEnable = false ∨ s.enAt c v.toNat = true) :
    execComplete c v s = .next ((s.retire c v.toNat).respond none) := by
  rcases he with he | he <;> simp [execComplete, perform_of_clean _ hf, h, hi, he]

theorem execComplete_ignored {c : Nat} {v : Word} (h : s.cfg.isContext c = true) (hi : s.hsAt c = .inService v.toNat)
    (hr : s.cfg.completeRequiresEnable = true) (he : s.enAt c v.toNat = false) :
    execComplete c v s = .next (s.respond none) := by
  simp [execComplete, perform_of_clean _ hf, h, hi, hr, he]

theorem execComplete_bad {c : Nat} {v : Word} (h : s.cfg.isContext c = true) (hi : s.hsAt c ≠ .inService v.toNat) :
    execComplete c v s = .next (s.takeFault (.badComplete c v (s.hsAt c))) := by
  simp [execComplete, perform_of_clean _ hf, h, hi]

theorem execComplete_unmapped {c : Nat} {v : Word} (h : s.cfg.isContext c = false) :
    execComplete c v s = .next (s.takeFault (.unmapped .write (offWord (s.cfg.clmOff c)))) := by
  simp [execComplete, perform_of_clean _ hf, h]

theorem execBadAccess_clean (t : Transaction) :
    execBadAccess t s = .next (s.takeFault (.badAccess t.kind t.size t.place)) := perform_of_clean _ hf

theorem execUnmapped_clean (t : Transaction) :
    execUnmapped t s = .next (s.takeFault (.unmapped t.kind t.place)) := perform_of_clean _ hf

end

theorem execRaise_new {s : State} {id : Nat} (h : s.cfg.isSource id = true) (hs : s.insvcAt id = false)
    (hp : s.ipAt id = false) : execRaise id s = .next ((s.setIp id true).respond none) := by
  simp [execRaise, h, hs, hp]

theorem execRaise_merged {s : State} {id : Nat} (h : s.cfg.isSource id = true)
    (hm : s.insvcAt id = true ∨ s.ipAt id = true) : execRaise id s = .next (s.respond none) := by
  rcases hm with hm | hm <;> simp [execRaise, h, hm]

theorem execRaise_noLine {s : State} {id : Nat} (h : s.cfg.isSource id = false) :
    execRaise id s = .refused .noSourceLine := by
  simp [execRaise, h]

/-! The shape of the state gives every enable bit outside `1..N` the value 0 and makes a word write exact. -/

/-- No enable bit stands outside `1..N` (rule R22). -/
theorem enAt_outside {s : State} (hs : s.Shape) {k j : Nat} (h : s.cfg.isSource j = false) : s.enAt k j = false := by
  rw [← Bool.not_eq_true, isSource_iff] at h
  by_cases hk : k < s.en.length
  · have hm : s.en.getD k [] ∈ s.en := by simp [List.getD_eq_getElem?_getD, hk]
    exact srcGet_outside _ _ (by rw [hs.row_length _ hm]; omega)
  · have he : s.en.getD k [] = [] := by simp [List.getD_eq_getElem?_getD, Nat.not_lt.mp hk]
    rw [State.enAt, he]; cases j <;> rfl

/-- Every enable bit after a word write, on a state of the right shape (rule R103). -/
theorem enAt_writeEnWord_of_shape {s : State} (hs : s.Shape) {c w : Nat} (data : Word) (k j : Nat)
    (hc : s.cfg.isContext c = true) :
    (s.writeEnWord c w data).enAt k j =
      if k = c ∧ s.cfg.isSource j = true ∧ j / 32 = w then data.getLsbD (j % 32) else s.enAt k j := by
  rw [enAt_writeEnWord _ _ _ _ _ _ (by rw [hs.en_length]; exact isContext_iff.mp hc)]
  by_cases hk : k = c
  · subst hk
    cases hj : s.cfg.isSource j with
    | true => by_cases hw : j / 32 = w <;> simp [hw, State.enBitAfter]
    | false => simp [enAt_outside hs hj]
  · simp [hk]

end Sys2Proof.Machine
end

