-- ==== Sys2Proof/Laws/Config.lean ====
section
/-!
SUPPORT. What an admitted configuration gives (rule R60), and what the decoder's clauses say (rule R72).
-/

namespace Sys2Proof

theorem mem_regions {cfg : Config} {r : Region} :
    r ∈ cfg.regions ↔ r = ⟨.priority, cfg.priorityOffset, cfg.numSources + 1⟩ ∨
      ∃ c < cfg.numHarts, r = ⟨.enable, cfg.enableBase c, cfg.numEnableWords⟩ ∨ r = ⟨.threshold, cfg.thrOff c, 1⟩
        ∨ r = ⟨.claim, cfg.clmOff c, 1⟩ := by
  simp [Config.regions, Config.contextRegions, List.mem_flatMap]

/-- The check as a proposition, part by part. -/
theorem wf_iff {cfg : Config} :
    cfg.wf = true ↔
      (1 ≤ cfg.numSources ∧ 1 ≤ cfg.maxPriority ∧ cfg.maxPriority < 2 ^ 32 ∧ 1 ≤ cfg.numHarts) ∧
      (cfg.base % 4 = 0 ∧ cfg.priorityOffset % 4 = 0 ∧ cfg.enableOffset % 4 = 0 ∧ cfg.enableStride % 4 = 0 ∧
        cfg.thresholdOffset % 4 = 0 ∧ cfg.thresholdStride % 4 = 0 ∧ cfg.claimOffset % 4 = 0 ∧
        cfg.claimStride % 4 = 0) ∧
      (1 < cfg.numHarts →
        4 * cfg.numEnableWords ≤ cfg.enableStride ∧ 4 ≤ cfg.thresholdStride ∧ 4 ≤ cfg.claimStride) ∧
      (∀ r ∈ cfg.regions, r.stop ≤ 2 ^ 32) ∧
      (∀ r ∈ cfg.regions, ∀ q ∈ cfg.regions, r.bank = q.bank ∨ r.stop ≤ q.start ∨ q.stop ≤ r.start) := by
  have hs : cfg.stridesOk = true ↔ (1 < cfg.numHarts →
      4 * cfg.numEnableWords ≤ cfg.enableStride ∧ 4 ≤ cfg.thresholdStride ∧ 4 ≤ cfg.claimStride) := by
    simp only [Config.stridesOk, Bool.or_eq_true, Bool.and_eq_true, decide_eq_true_iff]
    omega
  simp only [Config.wf, Bool.and_eq_true, hs]
  simp [Config.rangesOk, Config.layoutAligned, Config.regionsInWindow, Config.banksDisjoint, and_assoc, or_assoc]

/-- The layout facts the decoder needs, once and for all: everything aligned and in the window, and the regions of
different registers apart. -/
structure Config.Layout (cfg : Config) : Prop where
  aligned_prio : cfg.priorityOffset % 4 = 0
  aligned_enable : ∀ c, cfg.enableBase c % 4 = 0
  aligned_thr : ∀ c, cfg.thrOff c % 4 = 0
  aligned_clm : ∀ c, cfg.clmOff c % 4 = 0
  window_prio : cfg.priorityOffset + 4 * (cfg.numSources + 1) ≤ 2 ^ 32
  window_enable : ∀ c < cfg.numHarts, cfg.enableBase c + 4 * cfg.numEnableWords ≤ 2 ^ 32
  window_thr : ∀ c < cfg.numHarts, cfg.thrOff c + 4 ≤ 2 ^ 32
  window_clm : ∀ c < cfg.numHarts, cfg.clmOff c + 4 ≤ 2 ^ 32
  prio_enable : ∀ c < cfg.numHarts, cfg.priorityOffset + 4 * (cfg.numSources + 1) ≤ cfg.enableBase c ∨
    cfg.enableBase c + 4 * cfg.numEnableWords ≤ cfg.priorityOffset
  prio_thr : ∀ c < cfg.numHarts, cfg.priorityOffset + 4 * (cfg.numSources + 1) ≤ cfg.thrOff c ∨
    cfg.thrOff c + 4 ≤ cfg.priorityOffset
  prio_clm : ∀ c < cfg.numHarts, cfg.priorityOffset + 4 * (cfg.numSources + 1) ≤ cfg.clmOff c ∨
    cfg.clmOff c + 4 ≤ cfg.priorityOffset
  enable_thr : ∀ c < cfg.numHarts, ∀ k < cfg.numHarts,
    cfg.enableBase c + 4 * cfg.numEnableWords ≤ cfg.thrOff k ∨ cfg.thrOff k + 4 ≤ cfg.enableBase c
  enable_clm : ∀ c < cfg.numHarts, ∀ k < cfg.numHarts,
    cfg.enableBase c + 4 * cfg.numEnableWords ≤ cfg.clmOff k ∨ cfg.clmOff k + 4 ≤ cfg.enableBase c
  thr_clm : ∀ c < cfg.numHarts, ∀ k < cfg.numHarts,
    cfg.thrOff c + 4 ≤ cfg.clmOff k ∨ cfg.clmOff k + 4 ≤ cfg.thrOff c
  enable_enable : ∀ c < cfg.numHarts, ∀ k < cfg.numHarts, c ≠ k →
    cfg.enableBase c + 4 * cfg.numEnableWords ≤ cfg.enableBase k ∨
      cfg.enableBase k + 4 * cfg.numEnableWords ≤ cfg.enableBase c
  thr_inj : ∀ c < cfg.numHarts, ∀ k < cfg.numHarts, cfg.thrOff c = cfg.thrOff k → c = k
  clm_inj : ∀ c < cfg.numHarts, ∀ k < cfg.numHarts, cfg.clmOff c = cfg.clmOff k → c = k

/-- Multiples of a stride that leaves room keep their distance. -/
theorem stride_apart {c k stride room : Nat} (hs : room ≤ stride) (h : c < k) :
    c * stride + room ≤ k * stride := by
  have h1 : (c + 1) * stride ≤ k * stride := Nat.mul_le_mul_right stride h
  rw [Nat.add_mul, Nat.one_mul] at h1
  omega

theorem mul_mod_four {c x : Nat} (h : x % 4 = 0) : c * x % 4 = 0 := by
  rw [Nat.mul_mod, h, Nat.mul_zero, Nat.zero_mod]

/-- An admitted configuration has such a layout (rule R60). -/
theorem layout_of_wf {cfg : Config} (h : cfg.wf = true) : cfg.Layout := by
  obtain ⟨⟨_, _, _, hh⟩, ⟨_, ap, ae, ase, at', ast, ac, asc⟩, hstr, hwin, hdis⟩ := wf_iff.mp h
  have hp : (⟨.priority, cfg.priorityOffset, cfg.numSources + 1⟩ : Region) ∈ cfg.regions :=
    mem_regions.mpr (Or.inl rfl)
  have he : ∀ c < cfg.numHarts, (⟨.enable, cfg.enableBase c, cfg.numEnableWords⟩ : Region) ∈ cfg.regions :=
    fun c hc => mem_regions.mpr (Or.inr ⟨c, hc, Or.inl rfl⟩)
  have ht : ∀ c < cfg.numHarts, (⟨.threshold, cfg.thrOff c, 1⟩ : Region) ∈ cfg.regions :=
    fun c hc => mem_regions.mpr (Or.inr ⟨c, hc, Or.inr (Or.inl rfl)⟩)
  have hk : ∀ c < cfg.numHarts, (⟨.claim, cfg.clmOff c, 1⟩ : Region) ∈ cfg.regions :=
    fun c hc => mem_regions.mpr (Or.inr ⟨c, hc, Or.inr (Or.inr rfl)⟩)
  have apart : ∀ {r q : Region}, r ∈ cfg.regions → q ∈ cfg.regions → r.bank ≠ q.bank →
      r.start + 4 * r.words ≤ q.start ∨ q.start + 4 * q.words ≤ r.start :=
    fun hr hq hne => (hdis _ hr _ hq).resolve_left hne
  have wd : ∀ {r : Region}, r ∈ cfg.regions → r.start + 4 * r.words ≤ 2 ^ 32 := fun hr => hwin _ hr
  have two : ∀ {c k}, c < cfg.numHarts → k < cfg.numHarts → c ≠ k → 1 < cfg.numHarts := by omega
  refine
    { aligned_prio := ap
      aligned_enable := fun c => by have := mul_mod_four (c := c) ase; simp only [Config.enableBase]; omega
      aligned_thr := fun c => by have := mul_mod_four (c := c) ast; simp only [Config.thrOff]; omega
      aligned_clm := fun c => by have := mul_mod_four (c := c) asc; simp only [Config.clmOff]; omega
      window_prio := wd hp
      window_enable := fun c hc => wd (he c hc)
      window_thr := fun c hc => wd (ht c hc)
      window_clm := fun c hc => wd (hk c hc)
      prio_enable := fun c hc => apart hp (he c hc) nofun
      prio_thr := fun c hc => apart hp (ht c hc) nofun
      prio_clm := fun c hc => apart hp (hk c hc) nofun
      enable_thr := fun c hc k hk' => apart (he c hc) (ht k hk') nofun
      enable_clm := fun c hc k hk' => apart (he c hc) (hk k hk') nofun
      thr_clm := fun c hc k hk' => apart (ht c hc) (hk k hk') nofun
      enable_enable := ?_
      thr_inj := ?_
      clm_inj := ?_ }
  · intro c hc k hk' hne
    have hst := (hstr (two hc hk' hne)).1
    simp only [Config.enableBase]
    rcases Nat.lt_or_gt_of_ne hne with hlt | hlt
    · have := stride_apart hst hlt; omega
    · have := stride_apart hst hlt; omega
  · intro c hc k hk' heq
    by_contra hne
    have hst := (hstr (two hc hk' hne)).2.1
    simp only [Config.thrOff] at heq
    rcases Nat.lt_or_gt_of_ne hne with hlt | hlt
    · have := stride_apart hst hlt; omega
    · have := stride_apart hst hlt; omega
  · intro c hc k hk' heq
    by_contra hne
    have hst := (hstr (two hc hk' hne)).2.2
    simp only [Config.clmOff] at heq
    rcases Nat.lt_or_gt_of_ne hne with hlt | hlt
    · have := stride_apart hst hlt; omega
    · have := stride_apart hst hlt; omega

/-- What a register's offset is, as a target (rule R73). -/
def Target.offset (cfg : Config) : Target → Nat
  | .prio id => cfg.prioOff id
  | .enable c w => cfg.enwOff c w
  | .threshold c => cfg.thrOff c
  | .claimComplete c => cfg.clmOff c

/-- The index ranges of a target (rule R73). -/
def Target.inRange (cfg : Config) : Target → Prop
  | .prio id => cfg.isSource id = true
  | .enable c w => cfg.isContext c = true ∧ cfg.isEnableWord w = true
  | .threshold c => cfg.isContext c = true
  | .claimComplete c => cfg.isContext c = true

/-- All that one pass of rule R72's loop can answer. -/
theorem decodeContext_spec {cfg : Config} (hl : cfg.Layout) {off c : Nat} (ha : off % 4 = 0) {g : Target}
    (h : decodeContext cfg off c = some g) (hc : c < cfg.numHarts) :
    g.offset cfg = off ∧ g.inRange cfg := by
  have hae := hl.aligned_enable c
  simp only [decodeContext] at h
  split at h
  · rename_i hr
    cases h
    simp only [Target.offset, Target.inRange, Config.enwOff, Config.enableBase, Config.isContext,
      Config.isEnableWord, decide_eq_true_iff] at hae ⊢
    omega
  · split at h
    · cases h; subst_vars; exact ⟨rfl, by simpa [Target.inRange, Config.isContext] using hc⟩
    · split at h
      · cases h; subst_vars; exact ⟨rfl, by simpa [Target.inRange, Config.isContext] using hc⟩
      · cases h

/-- All that the map decode can answer: the register standing at that offset (rule R72, rule R73). -/
theorem decodeTarget_spec {cfg : Config} (hl : cfg.Layout) {off : Nat} (ha : off % 4 = 0) {g : Target}
    (h : decodeTarget cfg off = some g) : g.offset cfg = off ∧ g.inRange cfg := by
  have hap := hl.aligned_prio
  simp only [decodeTarget] at h
  split at h
  · rename_i hr
    cases h
    simp only [Target.offset, Target.inRange, Config.prioOff, Config.isSource, Bool.and_eq_true,
      decide_eq_true_iff]
    omega
  · obtain ⟨c, hc, hg⟩ := List.exists_of_findSome?_eq_some h
    exact decodeContext_spec hl ha hg (List.mem_range.mp hc)

/-- Two targets in range at the same offset are the same register. -/
theorem target_unique {cfg : Config} (hl : cfg.Layout) {g g' : Target} (hg : g.inRange cfg) (hg' : g'.inRange cfg)
    (h : g.offset cfg = g'.offset cfg) : g = g' := by
  cases g <;> cases g' <;>
    simp only [Target.inRange, Target.offset, Config.isSource, Config.isContext, Config.isEnableWord,
      Bool.and_eq_true, decide_eq_true_iff, Config.prioOff, Config.enwOff] at hg hg' h
  case prio.prio id id' => congr 1; omega
  case prio.enable id c w => have := hl.prio_enable c hg'.1; omega
  case prio.threshold id c => have := hl.prio_thr c hg'; omega
  case prio.claimComplete id c => have := hl.prio_clm c hg'; omega
  case enable.prio c w id => have := hl.prio_enable c hg.1; omega
  case enable.enable c w c' w' =>
    by_cases hcc : c = c'
    · subst hcc; congr 1; omega
    · have := hl.enable_enable c hg.1 c' hg'.1 hcc; omega
  case enable.threshold c w c' => have := hl.enable_thr c hg.1 c' hg'; omega
  case enable.claimComplete c w c' => have := hl.enable_clm c hg.1 c' hg'; omega
  case threshold.prio c id => have := hl.prio_thr c hg; omega
  case threshold.enable c c' w => have := hl.enable_thr c' hg'.1 c hg; omega
  case threshold.threshold c c' => rw [hl.thr_inj c hg c' hg' h]
  case threshold.claimComplete c c' => have := hl.thr_clm c hg c' hg'; omega
  case claimComplete.prio c id => have := hl.prio_clm c hg; omega
  case claimComplete.enable c c' w => have := hl.enable_clm c' hg'.1 c hg; omega
  case claimComplete.threshold c c' => have := hl.thr_clm c' hg' c hg; omega
  case claimComplete.claimComplete c c' => rw [hl.clm_inj c hg c' hg' h]

/-- Some pass of the loop matches the offset of a per-context register. -/
theorem decodeContext_isSome {cfg : Config} {g : Target} {c : Nat}
    (h : (∃ w < cfg.numEnableWords, g = .enable c w) ∨ g = .threshold c ∨ g = .claimComplete c) :
    (decodeContext cfg (g.offset cfg) c).isSome = true := by
  simp only [decodeContext]
  rcases h with ⟨w, hw, rfl⟩ | rfl | rfl
  · rw [if_pos (by simp only [Target.offset, Config.enwOff, Config.enableBase]; omega)]; rfl
  · split
    · rfl
    · rw [if_pos (by rfl)]; rfl
  · split
    · rfl
    · split
      · rfl
      · rw [if_pos (by rfl)]; rfl

/-- Every offset in range is in the window and aligned. -/
theorem offset_ok {cfg : Config} (hl : cfg.Layout) {g : Target} (hg : g.inRange cfg) :
    g.offset cfg < 2 ^ 32 ∧ g.offset cfg % 4 = 0 := by
  cases g with
  | prio id =>
    have h1 := hl.window_prio
    have h2 := hl.aligned_prio
    simp only [Target.inRange, Config.isSource, Bool.and_eq_true, decide_eq_true_iff] at hg
    simp only [Target.offset, Config.prioOff]; omega
  | enable c w =>
    simp only [Target.inRange, Config.isContext, Config.isEnableWord, decide_eq_true_iff] at hg
    have h1 := hl.window_enable c hg.1
    have h2 := hl.aligned_enable c
    simp only [Target.offset, Config.enwOff]; omega
  | threshold c =>
    simp only [Target.inRange, Config.isContext, decide_eq_true_iff] at hg
    have h1 := hl.window_thr c hg
    have h2 := hl.aligned_thr c
    simp only [Target.offset]; omega
  | claimComplete c =>
    simp only [Target.inRange, Config.isContext, decide_eq_true_iff] at hg
    have h1 := hl.window_clm c hg
    have h2 := hl.aligned_clm c
    simp only [Target.offset]; omega

/-- The map decode finds the register standing at an offset (rule R72, rule R73). -/
theorem decodeTarget_offset {cfg : Config} (hl : cfg.Layout) {g : Target} (hg : g.inRange cfg) :
    decodeTarget cfg (g.offset cfg) = some g := by
  have key : ∀ g', decodeTarget cfg (g.offset cfg) = some g' → g' = g := fun g' h => by
    obtain ⟨h1, h2⟩ := decodeTarget_spec hl (offset_ok hl hg).2 h
    exact target_unique hl h2 hg h1
  have some_ : (decodeTarget cfg (g.offset cfg)).isSome = true := by
    simp only [decodeTarget]
    split
    · rfl
    · rename_i hnp
      have loop : ∀ c < cfg.numHarts, (decodeContext cfg (g.offset cfg) c).isSome = true →
          ((List.range cfg.numHarts).findSome? (decodeContext cfg (g.offset cfg))).isSome = true :=
        fun c hc hs => List.findSome?_isSome_iff.mpr ⟨c, List.mem_range.mpr hc, hs⟩
      cases g with
      | prio id =>
        simp only [Target.inRange, Config.isSource, Bool.and_eq_true, decide_eq_true_iff] at hg
        simp only [Target.offset, Config.prioOff] at hnp; omega
      | enable c w =>
        simp only [Target.inRange, Config.isContext, Config.isEnableWord, decide_eq_true_iff] at hg
        exact loop c hg.1 (decodeContext_isSome (Or.inl ⟨w, hg.2, rfl⟩))
      | threshold c =>
        simp only [Target.inRange, Config.isContext, decide_eq_true_iff] at hg
        exact loop c hg (decodeContext_isSome (Or.inr (Or.inl rfl)))
      | claimComplete c =>
        simp only [Target.inRange, Config.isContext, decide_eq_true_iff] at hg
        exact loop c hg (decodeContext_isSome (Or.inr (Or.inr rfl)))
  obtain ⟨g', hg'⟩ := Option.isSome_iff_exists.mp some_
  rw [hg', key g' hg']

end Sys2Proof
end

