-- ==== Sys2Proof/Laws/PerInstr.lean ====
section
/-!
SUPPORT. Statements made for every instruction as a piece of data, one lemma per constructor.
Family `WidthCheck`: the request that stands for a well-formed row fails the width, alignment and kind checks of rule R72
exactly when the row is BAD_ACCESS.
-/

namespace Sys2Proof

/-- The row is BAD_ACCESS. -/
def Instr.isBadAccess : Instr → Bool
  | .badAccess _ => true
  | _ => false

/-- An aligned offset in the window makes an admitted read and an admitted write (rule R72). -/
theorem isBad_r32_w32 {off : Nat} (h : off < 2 ^ 32 ∧ off % 4 = 0) (data : Word) :
    (Transaction.r32 off).isBad = false ∧ (Transaction.w32 off data).isBad = false := by
  obtain ⟨h1, h2⟩ := h
  have h3 : off % 2 ^ 32 % 4 = 0 := by omega
  constructor <;>
    simp only [Access.isBad, Transaction.r32, Transaction.w32, Access.kind, Access.size, Access.place,
      BitVec.toNat_ofNat, h3] <;> rfl

end Sys2Proof

namespace Sys2Proof.Laws.WidthCheck

def Statement (i : Instr) : Prop :=
  ∀ cfg : Config, cfg.wf = true → i.wf cfg = true →
    ∀ t, encode cfg i = .host t → t.isBad = i.isBadAccess

/-- The register rows: the request is a read or a write at the offset of a target in range. -/
theorem of_target {cfg : Config} (hc : cfg.wf = true) {g : Target} (hg : g.inRange cfg) {t : Transaction} {data : Word}
    (ht : t = Transaction.r32 (g.offset cfg) ∨ t = Transaction.w32 (g.offset cfg) data) : t.isBad = false := by
  have h := isBad_r32_w32 (offset_ok (layout_of_wf hc) hg) data
  rcases ht with rfl | rfl
  · exact h.1
  · exact h.2

theorem prioRd (id : Nat) : Statement (.prioRd id) := fun _ hc hi _ ht =>
  of_target hc (g := .prio id) (data := 0) hi (Or.inl (Request.host.inj ht).symm)

theorem prioWr (id : Nat) (data : Word) : Statement (.prioWr id data) := fun _ hc hi _ ht =>
  of_target hc (g := .prio id) hi (Or.inr (Request.host.inj ht).symm)

theorem enRd (c w : Nat) : Statement (.enRd c w) := fun _ hc hi _ ht =>
  of_target hc (g := .enable c w) (data := 0) ((Bool.and_eq_true _ _).mp hi) (Or.inl (Request.host.inj ht).symm)

theorem enWr (c w : Nat) (data : Word) : Statement (.enWr c w data) := fun _ hc hi _ ht =>
  of_target hc (g := .enable c w) ((Bool.and_eq_true _ _).mp hi) (Or.inr (Request.host.inj ht).symm)

theorem thrRd (c : Nat) : Statement (.thrRd c) := fun _ hc hi _ ht =>
  of_target hc (g := .threshold c) (data := 0) hi (Or.inl (Request.host.inj ht).symm)

theorem thrWr (c : Nat) (data : Word) : Statement (.thrWr c data) := fun _ hc hi _ ht =>
  of_target hc (g := .threshold c) hi (Or.inr (Request.host.inj ht).symm)

theorem claim (c : Nat) : Statement (.claim c) := fun _ hc hi _ ht =>
  of_target hc (g := .claimComplete c) (data := 0) hi (Or.inl (Request.host.inj ht).symm)

theorem complete (c : Nat) (data : Word) : Statement (.complete c data) := fun _ hc hi _ ht =>
  of_target hc (g := .claimComplete c) hi (Or.inr (Request.host.inj ht).symm)

theorem raise (id : Nat) : Statement (.raise id) := fun _ _ _ _ ht => nomatch ht

theorem badAccess (a : Transaction) : Statement (.badAccess a) := fun _ _ hi _ ht =>
  Request.host.inj ht ▸ hi

theorem unmapped (a : Transaction) : Statement (.unmapped a) := fun _ _ hi _ ht => by
  rw [← Request.host.inj ht]
  simpa [Instr.isBadAccess] using ((Bool.and_eq_true _ _).mp hi).1

end Sys2Proof.Laws.WidthCheck
end

