-- ==== Sys2Proof/Laws/Decode.lean ====
section
/-!
SUPPORT. What each kind of transaction decodes to (rule R72), and that an access at `BASE + off` is presented at `off`
(rule R51).
-/

namespace Sys2Proof

theorem decode_r32 {cfg : Config} (hl : cfg.Layout) {g : Target} (hg : g.inRange cfg) :
    decode cfg (.host (Transaction.r32 (g.offset cfg))) = readInstr g := by
  obtain ⟨h1, h2⟩ := offset_ok hl hg
  have h3 : g.offset cfg % 2 ^ 32 = g.offset cfg := Nat.mod_eq_of_lt h1
  simp only [decode, decodeTransaction, Transaction.r32, BitVec.toNat_ofNat, h3, decodeTarget_offset hl hg]
  simp [h2]

theorem decode_w32 {cfg : Config} (hl : cfg.Layout) {g : Target} (hg : g.inRange cfg) (data : Word) :
    decode cfg (.host (Transaction.w32 (g.offset cfg) data)) = writeInstr data g := by
  obtain ⟨h1, h2⟩ := offset_ok hl hg
  have h3 : g.offset cfg % 2 ^ 32 = g.offset cfg := Nat.mod_eq_of_lt h1
  simp only [decode, decodeTransaction, Transaction.w32, BitVec.toNat_ofNat, h3, decodeTarget_offset hl hg]
  simp [h2]

/-- The register map of rule R73 lists exactly the offsets of the targets in range. -/
theorem mapped_iff {cfg : Config} {off : Nat} :
    cfg.mapped off = true ↔ ∃ g : Target, g.inRange cfg ∧ g.offset cfg = off := by
  simp only [Config.mapped, Bool.or_eq_true, List.any_eq_true, List.mem_range'_1, List.mem_range, beq_iff_eq]
  constructor
  · rintro (⟨id, h1, rfl⟩ | ⟨c, hc, (⟨w, hw, rfl⟩ | rfl) | rfl⟩)
    · exact ⟨.prio id, by simp only [Target.inRange, Config.isSource, Bool.and_eq_true, decide_eq_true_iff]; omega, rfl⟩
    · exact ⟨.enable c w, ⟨decide_eq_true hc, decide_eq_true hw⟩, rfl⟩
    · exact ⟨.threshold c, decide_eq_true hc, rfl⟩
    · exact ⟨.claimComplete c, decide_eq_true hc, rfl⟩
  · rintro ⟨g, hg, rfl⟩
    cases g <;>
      simp only [Target.inRange, Config.isSource, Config.isContext, Config.isEnableWord, Bool.and_eq_true,
        decide_eq_true_iff] at hg
    · exact Or.inl ⟨_, by omega, rfl⟩
    · exact Or.inr ⟨_, hg.1, Or.inl (Or.inl ⟨_, hg.2, rfl⟩)⟩
    · exact Or.inr ⟨_, hg, Or.inl (Or.inr rfl)⟩
    · exact Or.inr ⟨_, hg, Or.inr rfl⟩

theorem decodeTarget_unmapped {cfg : Config} (hl : cfg.Layout) {off : Nat} (ha : off % 4 = 0)
    (h : cfg.mapped off = false) : decodeTarget cfg off = none := by
  cases hd : decodeTarget cfg off with
  | none => rfl
  | some g =>
    obtain ⟨h1, h2⟩ := decodeTarget_spec hl ha hd
    rw [mapped_iff.mpr ⟨g, h2, h1⟩] at h; cases h

theorem isBad_eq_false_iff {t : Transaction} :
    t.isBad = false ↔ t.kind ≠ .fetch ∧ t.size = 4 ∧ t.place.toNat % 4 = 0 := by
  simp [Access.isBad, and_assoc]

theorem decode_unmapped {cfg : Config} (hl : cfg.Layout) {t : Transaction} (hb : t.isBad = false)
    (h : cfg.mapped t.place.toNat = false) : decode cfg (.host t) = .unmapped t := by
  obtain ⟨h1, h2, h3⟩ := isBad_eq_false_iff.mp hb
  have hn := decodeTarget_unmapped hl h3 h
  cases t with
  | fetch => exact absurd rfl h1
  | read n o => simp only [Access.size, Access.place] at h2 h3 hn; simp [decode, decodeTransaction, h2, h3, hn]
  | write n o d => simp only [Access.size, Access.place] at h2 h3 hn; simp [decode, decodeTransaction, h2, h3, hn]

theorem decode_bad {cfg : Config} {t : Transaction} (hb : t.isBad = true) : decode cfg (.host t) = .badAccess t := by
  cases t with
  | fetch => rfl
  | read n o =>
    simp only [decode, decodeTransaction]
    split
    · rfl
    · split
      · rfl
      · exact absurd hb (by rw [isBad_eq_false_iff.mpr ⟨AccessKind.noConfusion, not_not.mp ‹_›, not_not.mp ‹_›⟩]; decide)
  | write n o d =>
    simp only [decode, decodeTransaction]
    split
    · rfl
    · split
      · rfl
      · exact absurd hb (by rw [isBad_eq_false_iff.mpr ⟨AccessKind.noConfusion, not_not.mp ‹_›, not_not.mp ‹_›⟩]; decide)

namespace Access
variable {α β γ : Type}

@[simp] theorem place_moveTo (b : β) (t : Access α) : (t.moveTo b).place = b := by cases t <;> rfl

@[simp] theorem moveTo_moveTo (b : β) (c : γ) (t : Access α) : (t.moveTo b).moveTo c = t.moveTo c := by cases t <;> rfl

@[simp] theorem moveTo_place (t : Access α) : t.moveTo t.place = t := by cases t <;> rfl

end Access

namespace Machine

/-- An access at `BASE + off` is presented as the transaction at `off` (rule R51). -/
theorem present_moveTo (cfg : Config) (t : Transaction) :
    present cfg (t.moveTo (cfg.base + t.place.toNat)) = some t := by
  rw [present_inWindow cfg _ (Access.place_moveTo _ _) t.place.isLt]
  simp

end Machine

end Sys2Proof
end

