-- ==== Sys2Proof/Laws/Driver.lean ====
section
/-!
SUPPORT. An access of a host sequence is the request at its offset, and is refused where no offset exists.
-/

namespace Sys2Proof.Machine

theorem readReg_of_offset (s : State) {off : Nat} (h : off < 2 ^ 32) :
    readReg off s = request (.host (Transaction.r32 off)) s := by
  simp only [readReg, runEvent, present_inWindow s.cfg (.read 4 (s.cfg.base + off)) rfl h]; rfl

theorem writeReg_of_offset (s : State) {off : Nat} (v : Word) (h : off < 2 ^ 32) :
    writeReg off v s = request (.host (Transaction.w32 off v)) s := by
  simp only [writeReg, runEvent, present_inWindow s.cfg (.write 4 (s.cfg.base + off) v) rfl h]; rfl

theorem readReg_beyond (s : State) {off : Nat} (h : 2 ^ 32 ≤ off) : readReg off s = .refused .notRouted := by
  simp only [readReg, runEvent, present_beyond s.cfg (.read 4 (s.cfg.base + off)) rfl h]

theorem writeReg_beyond (s : State) {off : Nat} (v : Word) (h : 2 ^ 32 ≤ off) : writeReg off v s = .refused .notRouted := by
  simp only [writeReg, runEvent, present_beyond s.cfg (.write 4 (s.cfg.base + off) v) rfl h]

end Sys2Proof.Machine
end

