-- ==== Sys2Proof/Laws/Invariant.lean ====
section
/-!
SUPPORT. What the shape and the invariant of the state depend on, which updates keep the shape, and the accessors of the state
after a reset.
-/

namespace Sys2Proof.Machine

/-- The shape depends on the configuration and the lists only. -/
theorem State.Shape.congr {s t : State} (h : s.Shape) (e : t.cfg = s.cfg ∧ t.prio = s.prio ∧ t.en = s.en ∧ t.thr = s.thr ∧
    t.ip = s.ip ∧ t.insvc = s.insvc ∧ t.hs = s.hs) : t.Shape := by
  cases s; cases t
  obtain ⟨rfl, rfl, rfl, rfl, rfl, rfl, rfl⟩ := e
  exact ⟨h.1, h.2, h.3, h.4, h.5, h.6, h.7⟩

/-- The invariant depends on the configuration and the lists only. -/
theorem State.Inv.congr {s t : State} (h : s.Inv) (e : t.cfg = s.cfg ∧ t.prio = s.prio ∧ t.en = s.en ∧ t.thr = s.thr ∧
    t.ip = s.ip ∧ t.insvc = s.insvc ∧ t.hs = s.hs) : t.Inv := by
  cases s; cases t
  obtain ⟨rfl, rfl, rfl, rfl, rfl, rfl, rfl⟩ := e
  exact ⟨⟨h.1.1, h.1.2, h.1.3, h.1.4, h.1.5, h.1.6, h.1.7⟩, h.2, h.3, h.4, h.5, h.6, h.7, h.8⟩

theorem shape_setPrio {s : State} (h : s.Shape) (id : Nat) (p : Word) : (s.setPrio id p).Shape :=
  ⟨by simp [h.prio_length], h.2, h.3, h.4, h.5, h.6, h.7⟩

theorem shape_setThr {s : State} (h : s.Shape) (c : Nat) (v : Word) : (s.setThr c v).Shape :=
  ⟨h.1, h.2, h.3, h.4, h.5, by simp [h.thr_length], h.7⟩

theorem shape_writeEnWord {s : State} (h : s.Shape) (c w : Nat) (data : Word) : (s.writeEnWord c w data).Shape := by
  refine ⟨h.1, h.2, h.3, by simp [h.en_length], fun row hrow => ?_, h.6, h.7⟩
  rcases List.mem_or_eq_of_mem_set hrow with hrow | rfl
  · exact h.row_length row hrow
  · simp

theorem shape_setIp {s : State} (h : s.Shape) (id : Nat) (b : Bool) : (s.setIp id b).Shape :=
  ⟨h.1, by simp [h.ip_length], h.3, h.4, h.5, h.6, h.7⟩

theorem shape_markClaimed {s : State} (h : s.Shape) (c id : Nat) : (s.markClaimed c id).Shape := by
  by_cases h0 : id = 0
  · rw [State.markClaimed, if_pos h0]; exact h
  · rw [State.markClaimed_of_ne s h0]
    exact ⟨h.1, by simp [h.ip_length], by simp [h.insvc_length], h.4, h.5, h.6, by simp [h.hs_length]⟩

theorem shape_retire {s : State} (h : s.Shape) (c id : Nat) : (s.retire c id).Shape :=
  ⟨h.1, h.2, by simp [h.insvc_length], h.4, h.5, h.6, by simp [h.hs_length]⟩

/-- A context that holds a source is a context, and it holds a source (rule R26). -/
theorem held_in_range {s : State} (h : s.Inv) {c id : Nat} (hc : s.hsAt c = .inService id) :
    c < s.cfg.numHarts ∧ 1 ≤ id ∧ id ≤ s.cfg.numSources := by
  obtain ⟨h1, h2⟩ := mem_of_hsAt_inService s hc
  exact ⟨h.shape.hs_length ▸ h1, isSource_iff.mp (h.held_source _ h2)⟩

/-- The encoder's answer depends on the configuration, the priorities, the pending bits, and of the contexts on its own enable
bits and threshold only (rule R132 to rule R134). -/
theorem pick_congr {s t : State} {c : Nat} (hg : t.cfg = s.cfg) (hp : t.prio = s.prio) (hi : t.ip = s.ip)
    (he : ∀ id, t.enAt c id = s.enAt c id) (ht : t.thrAt c = s.thrAt c) (k : Word) : pick t c k = pick s c k := by
  have h1 : ∀ id, t.prioAt id = s.prioAt id := fun id => by simp [State.prioAt, hp]
  have h2 : eligible t c = eligible s c := by
    funext id; simp [eligible, hg, he, ht, State.ipAt, hi, h1]
  have h3 : eligibles t c = eligibles s c := by simp [eligibles, hg, h2]
  have h4 : topPriority t c = topPriority s c := by simp [topPriority, h3, h1]
  have h5 : candidates t c = candidates s c := by simp [candidates, h3, h4, h1]
  simp [pick, h5, hg]

section Reset
variable (cfg : Config) (n : Nat) (es : List Event)

/-- A free priority is legal (rule R21, rule R23). -/
theorem drawPriority_le (k : Nat) : (drawPriority cfg k).toNat ≤ cfg.maxPriority := by
  have h : (Config.freeWord k).toNat % (cfg.maxPriority + 1) < cfg.maxPriority + 1 := Nat.mod_lt _ (Nat.succ_pos _)
  simp only [drawPriority, BitVec.toNat_ofNat]
  exact Nat.le_trans (Nat.mod_le _ _) (by omega)

theorem prioAt_resetWith {id : Nat} (h1 : 1 ≤ id) (h2 : id ≤ cfg.numSources) :
    (State.resetWith cfg n es).prioAt id = drawPriority cfg (n + (id - 1)) := by
  obtain ⟨k, rfl⟩ : ∃ k, id = k + 1 := ⟨id - 1, by omega⟩
  simp [State.prioAt, State.resetWith, List.getD_eq_getElem?_getD, resetPrio, show k < cfg.numSources by omega]

theorem thrAt_resetWith {c : Nat} (h : c < cfg.numHarts) :
    (State.resetWith cfg n es).thrAt c = drawPriority cfg (n + cfg.numSources + c) := by
  simp [State.thrAt, State.resetWith, List.getD_eq_getElem?_getD, resetThr, h]

theorem enAt_resetWith {c id : Nat} (h : c < cfg.numHarts) (h1 : 1 ≤ id) (h2 : id ≤ cfg.numSources) :
    (State.resetWith cfg n es).enAt c id = resetEn cfg n c id := by
  have hrow : ((List.range cfg.numHarts).map (fun c => (List.range' 1 cfg.numSources).map (resetEn cfg n c))).getD c [] =
      (List.range' 1 cfg.numSources).map (resetEn cfg n c) := by
    simp [List.getD_eq_getElem?_getD, h]
  simp only [State.enAt, State.resetWith]
  rw [hrow, srcGet_map_range', if_pos ⟨h1, h2⟩]

@[simp] theorem ipAt_resetWith (id : Nat) : (State.resetWith cfg n es).ipAt id = false := srcGet_replicate false _ id

@[simp] theorem insvcAt_resetWith (id : Nat) : (State.resetWith cfg n es).insvcAt id = false := srcGet_replicate false _ id

@[simp] theorem hsAt_resetWith (c : Nat) : (State.resetWith cfg n es).hsAt c = .idle := by
  simp [State.hsAt, State.resetWith, List.getD_eq_getElem?_getD, List.getElem?_replicate]; split <;> rfl

theorem shape_resetWith : (State.resetWith cfg n es).Shape := by
  refine ⟨?_, ?_, ?_, ?_, fun row hrow => ?_, ?_, ?_⟩
  case refine_5 =>
    obtain ⟨c, _, rfl⟩ := List.mem_map.mp hrow
    simp [State.resetWith]
  all_goals simp [State.resetWith]

end Reset

end Sys2Proof.Machine
end

