-- ==== Sys2Proof/Tests/Slice0.lean ====
section
/-!
SUPPORT. Tests on small states, the smoke test of WellFormed, and for every statement of Obligations.lean that has hypotheses a
concrete state and operands that meet them. Expected results are those of spec/95_test_vectors.md section 2 (its row is named in
the docstring) or are computed from the rule named there.
-/

namespace Sys2Proof.Tests

open Sys2Proof Sys2Proof.Machine

/-! ## States -/

/-- The start state of 95_test_vectors.md section 2 under a configuration with 4 sources and 2 contexts. -/
def startOf (cfg : Config) : State where
  cfg := cfg
  prio := [0, 3, 0, 7]
  en := [[false, true, false, true], [false, false, false, false]]
  thr := [0, 0]
  ip := [false, false, false, false]
  insvc := [false, false, false, false]
  hs := [.idle, .idle]
  fault := none
  result := none
  draws := 0
  inputs := []

def start : State := startOf Config.reference

/-- The reference configuration with ties to the lowest ID. -/
def lowest : Config := { Config.reference with tieBreak := .lowestId }

/-- Ties to the lowest ID, sources 2 and 4 pending. -/
def both : State := { startOf lowest with ip := [false, true, false, true] }

/-- Context 0 holds source 4. -/
def heldOf (cfg : Config) : State :=
  { startOf cfg with insvc := [false, false, false, true], hs := [.inService 4, .idle] }

def held : State := heldOf Config.reference

/-- Completes need the enable bit, and the enable bit of the held source 4 is clear. -/
def heldMasked : State :=
  { heldOf { Config.reference with completeRequiresEnable := true } with
    en := [[false, true, false, false], [false, false, false, false]] }

/-- A fault is recorded. -/
def faulted : State := { start with fault := some (.nestedClaim 0 4) }

/-- The outcome is a next state of which `p` holds. -/
def next (o : Host.Outcome State Fault Refusal) (p : State → Bool) : Bool :=
  match o with
  | .next t => p t
  | .fault _ => false
  | .refused _ => false

/-- A read and a write at an offset, as the request they are. -/
def rd (off : Nat) : Request := .host (Transaction.r32 off)
def wr (off : Nat) (v : Word) : Request := .host (Transaction.w32 off v)

/-- The same at the physical address under the reference layout, as an event. -/
def evRd (off : Nat) : Event := .host (.read 4 (0x0C000000 + off))
def evWr (off : Nat) (v : Word) : Event := .host (.write 4 (0x0C000000 + off) v)

/-- The state with a schedule of one event. -/
def before (s : State) (e : Event) : State := s.withInputs [e]

/-! ## WellFormed: one ill-formed term for each check -/

theorem test_wf_reference : Config.reference.wf = true := by decide

theorem test_wf_sources : ({ Config.reference with numSources := 0 } : Config).wf = false := by decide

theorem test_wf_maxPriority : ({ Config.reference with maxPriority := 0 } : Config).rangesOk = false ∧
    ({ Config.reference with maxPriority := 0x100000000 } : Config).rangesOk = false ∧
    ({ Config.reference with maxPriority := 0xFFFFFFFF } : Config).wf = true := by decide

theorem test_wf_harts : ({ Config.reference with numHarts := 0 } : Config).wf = false := by decide

theorem test_wf_alignment : ({ Config.reference with enableOffset := 0x2002 } : Config).layoutAligned = false ∧
    ({ Config.reference with base := 1 } : Config).wf = false := by decide

theorem test_wf_strides : ({ Config.reference with enableStride := 0 } : Config).stridesOk = false ∧
    ({ Config.reference with claimStride := 0 } : Config).wf = false := by decide

theorem test_wf_window : ({ Config.reference with priorityOffset := 0xFFFFFFF0 } : Config).regionsInWindow = false ∧
    ({ Config.reference with priorityOffset := 0xFFFFFFEC } : Config).regionsInWindow = true := by decide

/-- Word 0 of the priority array counts among the priority words (rule R60). -/
theorem test_wf_disjoint : ({ Config.reference with thresholdOffset := 0x200004 } : Config).banksDisjoint = false ∧
    ({ Config.reference with enableOffset := 0, enableStride := 0x80, priorityOffset := 0x80 } : Config).wf = false := by
  decide

theorem test_wf_instructions :
    Instr.wf Config.reference (.prioRd 0) = false ∧ Instr.wf Config.reference (.prioWr 5 0) = false ∧
    Instr.wf Config.reference (.enRd 2 0) = false ∧ Instr.wf Config.reference (.enWr 0 1 0) = false ∧
    Instr.wf Config.reference (.thrRd 2) = false ∧ Instr.wf Config.reference (.thrWr 2 0) = false ∧
    Instr.wf Config.reference (.claim 2) = false ∧ Instr.wf Config.reference (.complete 2 0) = false ∧
    Instr.wf Config.reference (.raise 0) = false ∧
    Instr.wf Config.reference (.badAccess (.read 4 0x4)) = false ∧
    Instr.wf Config.reference (.unmapped (.read 4 0x4)) = false ∧
    Instr.wf Config.reference (.unmapped (.read 2 0x14)) = false := by decide

/-! ## Decode: a word for every constructor, written out from the offset table of 95_test_vectors.md -/

theorem test_decode_prioRd : decode Config.reference (rd 0x000004) = .prioRd 1 := by decide
theorem test_decode_prioWr : decode Config.reference (wr 0x000010 2) = .prioWr 4 2 := by decide
theorem test_decode_enRd : decode Config.reference (rd 0x002080) = .enRd 1 0 := by decide
theorem test_decode_enWr : decode Config.reference (wr 0x002000 0x14) = .enWr 0 0 0x14 := by decide
theorem test_decode_thrRd : decode Config.reference (rd 0x201000) = .thrRd 1 := by decide
theorem test_decode_thrWr : decode Config.reference (wr 0x200000 7) = .thrWr 0 7 := by decide
theorem test_decode_claim : decode Config.reference (rd 0x201004) = .claim 1 := by decide
theorem test_decode_complete : decode Config.reference (wr 0x200004 4) = .complete 0 4 := by decide
theorem test_decode_raise : decode Config.reference (.source 2) = .raise 2 := by decide

/-- AC.1 to AC.5. -/
theorem test_decode_badAccess :
    decode Config.reference (.host (.fetch 4 0x000004)) = .badAccess (.fetch 4 0x000004) ∧
    decode Config.reference (.host (.read 1 0x000004)) = .badAccess (.read 1 0x000004) ∧
    decode Config.reference (.host (.write 2 0x200004 4)) = .badAccess (.write 2 0x200004 4) ∧
    decode Config.reference (.host (.read 8 0x200000)) = .badAccess (.read 8 0x200000) ∧
    decode Config.reference (rd 0x000006) = .badAccess (.read 4 0x000006) := by decide

/-- AC.6 to AC.13. -/
theorem test_decode_unmapped :
    decode Config.reference (rd 0x000000) = .unmapped (.read 4 0x000000) ∧
    decode Config.reference (wr 0x000000 9) = .unmapped (.write 4 0x000000 9) ∧
    decode Config.reference (rd 0x000014) = .unmapped (.read 4 0x000014) ∧
    decode Config.reference (rd 0x002004) = .unmapped (.read 4 0x002004) ∧
    decode Config.reference (rd 0x002100) = .unmapped (.read 4 0x002100) ∧
    decode Config.reference (rd 0x001000) = .unmapped (.read 4 0x001000) ∧
    decode Config.reference (rd 0x200008) = .unmapped (.read 4 0x200008) ∧
    decode Config.reference (rd 0x202004) = .unmapped (.read 4 0x202004) := by decide

/-- With 40 sources the second enable word is implemented: bit 8 of word 1 is ID 40 (rule R76). -/
theorem test_decode_secondEnableWord :
    decode (Config.referenceLayout 40 2) (rd 0x002084) = .enRd 1 1 ∧ enableId 1 8 = 40 := by decide

/-- A table word is the offset of a read (log entry 8). -/
theorem test_decodeTableWord : decodeTableWord 32 0x00002000 = some (.enRd 0 0) ∧
    decodeTableWord 32 0x00000000 = some (.unmapped (.read 4 0x00000000)) ∧ decodeTableWord 40 0 = none := by decide

/-- The next step after reset performs the read that the table word stands for. -/
theorem test_withFetchWord : next (step (State.reset.withFetchWord 32 0x00200004)) (fun t => t.result == some 0) = true := by
  decide

/-! ## Meanings -/

/-- PR.1 -/
theorem test_prioRd : next (exec (.prioRd 2) start) (fun t => t.result == some 3) = true := by decide

/-- PR.2 -/
theorem test_prioWr_max : next (exec (.prioWr 1 7) start) (fun t => t.prio == [7, 3, 0, 7] && t.fault.isNone) = true := by decide

/-- PR.4 -/
theorem test_prioWr_illegal : next (exec (.prioWr 1 8) start)
    (fun t => t.prio == [0, 3, 0, 7] && t.fault == some (.illegalValue 0x000004 8)) = true := by decide

/-- EN.1: `0x14` in the bits that name a source; bit 0 and bit 31 are the free ones. -/
theorem test_enRd (k : Word) :
    (start.enWord 0 0 k).getLsbD 1 = false ∧ (start.enWord 0 0 k).getLsbD 2 = true ∧
    (start.enWord 0 0 k).getLsbD 3 = false ∧ (start.enWord 0 0 k).getLsbD 4 = true ∧
    (start.enWord 0 0 k).getLsbD 0 = k.getLsbD 0 ∧ (start.enWord 0 0 k).getLsbD 31 = k.getLsbD 31 := by
  refine ⟨?_, ?_, ?_, ?_, ?_, ?_⟩ <;> rw [getLsbD_enWord _ _ _ _ (by decide)] <;> rfl

/-- EN.3 and EN.5. -/
theorem test_enWr_all : next (exec (.enWr 0 0 0xFFFFFFFF) start) (fun t => t.en == [[true, true, true, true],
    [false, false, false, false]]) = true ∧
    next (exec (.enWr 0 0 0xFFFFFFE1) start) (fun t => t.en == [[false, false, false, false],
    [false, false, false, false]]) = true := by decide

/-- EN.6 -/
theorem test_enWr_otherContext : next (exec (.enWr 1 0 0x00000008) start) (fun t => t.en ==
    [[false, true, false, true], [false, false, true, false]]) = true := by decide

/-- TH.1, and a threshold other than 0. -/
theorem test_thrRd : next (exec (.thrRd 0) start) (fun t => t.result == some 0) = true ∧
    next (exec (.thrRd 1) { start with thr := [1, 2] }) (fun t => t.result == some 2) = true := by decide

/-- TH.2 -/
theorem test_thrWr_max : next (exec (.thrWr 0 7) start) (fun t => t.thr == [7, 0] && t.fault.isNone) = true := by decide

/-- TH.3 -/
theorem test_thrWr_illegal : next (exec (.thrWr 0 8) start)
    (fun t => t.thr == [0, 0] && t.fault == some (.illegalValue 0x200000 8)) = true := by decide

/-- CL.2 -/
theorem test_claim : next (exec (.claim 0) both) (fun t => t.result == some 4 && t.ip == [false, true, false, false] &&
    t.insvc == [false, false, false, true] && t.hs == [.inService 4, .idle]) = true := by decide

/-- CL.5 -/
theorem test_claim_nested : next (exec (.claim 0) { held with ip := [false, true, false, false] })
    (fun t => t.fault == some (.nestedClaim 0 4) && t.ip == [false, true, false, false] && t.result == none) = true := by decide

/-- CC.1, and CC.9: the complete of a masked source is ignored where the configuration asks for the enable bit. -/
theorem test_complete : next (exec (.complete 0 4) held) (fun t => t.insvc == [false, false, false, false] &&
    t.hs == [.idle, .idle] && t.ip == held.ip) = true ∧
    next (exec (.complete 0 4) heldMasked) (fun t => t.insvc == heldMasked.insvc && t.hs == heldMasked.hs) = true := by decide

/-- CC.3, CC.5, CC.6 and CC.7. -/
theorem test_complete_bad :
    next (exec (.complete 0 0) start) (fun t => t.fault == some (.badComplete 0 0 .idle)) = true ∧
    next (exec (.complete 0 9) held) (fun t => t.fault == some (.badComplete 0 9 (.inService 4))) = true ∧
    next (exec (.complete 0 2) held) (fun t => t.fault == some (.badComplete 0 2 (.inService 4))) = true ∧
    next (exec (.complete 1 4) held) (fun t => t.fault == some (.badComplete 1 4 .idle)) = true := by decide

/-- RQ.1 -/
theorem test_raise : next (exec (.raise 2) start) (fun t => t.ip == [false, true, false, false]) = true := by decide

/-- RQ.3: a request of a source in service is dropped; and a request while a fault is recorded is taken (rule R130). -/
theorem test_raise_dropped : next (exec (.raise 4) held) (fun t => t.ip == held.ip) = true ∧
    next (exec (.raise 2) faulted) (fun t => t.ip == [false, true, false, false] && t.fault == faulted.fault) = true := by decide

/-- AC.3: the fault is recorded and no complete is performed. -/
theorem test_badAccess : next (request (.host (.write 2 0x200004 4)) held)
    (fun t => t.fault == some (.badAccess .write 2 0x200004) && t.hs == held.hs) = true := by decide

/-- AC.7: the map is tested before the value. -/
theorem test_unmapped : next (request (wr 0x000000 9) start) (fun t => t.fault == some (.unmapped .write 0x000000)) = true := by
  decide

/-- AC.14 -/
theorem test_halted : request (rd 0x000008) faulted = .fault (.halted (.nestedClaim 0 4)) := rfl

/-- PE.1, PE.3, PE.4, PE.5 with ties to the lowest ID. -/
theorem test_pick : pick (startOf lowest) 0 0 = 0 ∧ pick both 0 0 = 4 ∧ pick { both with thr := [3, 0] } 0 0 = 4 ∧
    pick { both with thr := [7, 0] } 0 0 = 0 ∧ irqOut { both with thr := [7, 0] } 0 = false := by decide

/-- PE.10 and PE.11: a tie at priority 3. -/
theorem test_pick_tie : pick { both with prio := [0, 3, 0, 3] } 0 1 = 2 ∧
    pick { both with prio := [0, 3, 0, 3], cfg := Config.reference } 0 0 = 2 ∧
    pick { both with prio := [0, 3, 0, 3], cfg := Config.reference } 0 1 = 4 := by decide

/-- RS.2: right after reset a complete of 0 and of 4 faults, whatever the free values are. -/
theorem test_reset_complete :
    next (exec (.complete 0 0) State.reset) (fun t => t.fault == some (.badComplete 0 0 .idle)) = true ∧
    next (exec (.complete 0 4) State.reset) (fun t => t.fault == some (.badComplete 0 4 .idle)) = true := by decide

/-- A reset clears the fault record and keeps what is still to come. -/
theorem test_reset_event : next (step (faulted.withInputs [.reset, .source 1]))
    (fun t => t.fault.isNone && t.inputs == [.source 1] && t.ip == [false, false, false, false]) = true := by decide

/-! ## Hypotheses that can be met -/

theorem start_inv : start.Inv :=
  ⟨⟨by decide, by decide, by decide, by decide, by decide, by decide, by decide⟩,
    by decide, by decide, by decide, by decide, by decide, by decide, by decide⟩

theorem both_inv : both.Inv :=
  ⟨⟨by decide, by decide, by decide, by decide, by decide, by decide, by decide⟩,
    by decide, by decide, by decide, by decide, by decide, by decide, by decide⟩

theorem held_inv : held.Inv :=
  ⟨⟨by decide, by decide, by decide, by decide, by decide, by decide, by decide⟩,
    by decide, by decide, by decide, by decide, by decide, by decide, by decide⟩

theorem heldMasked_inv : heldMasked.Inv :=
  ⟨⟨by decide, by decide, by decide, by decide, by decide, by decide, by decide⟩,
    by decide, by decide, by decide, by decide, by decide, by decide, by decide⟩

/-- A tie at priority 3, with ties to the lowest ID and with any tie choice. -/
def tie : State := { both with prio := [0, 3, 0, 3] }
def tieAny : State := { tie with cfg := Config.reference }

/-- The threshold of context 0 is `MAX_PRIORITY`. -/
def shut : State := { both with thr := [7, 0] }

/-- Source 4 is enabled for both contexts. -/
def shared : State := { both with en := [[false, true, false, true], [false, false, false, true]] }

/-- As `both`, with other enable bits and another threshold of context 1. -/
def otherContext : State := { both with en := [[false, true, false, true], [true, true, true, true]], thr := [0, 7] }

/-- The source a claim of context 0 takes from `both`. -/
theorem both_pick : pick both 0 both.drawn = 4 := by decide

/-- `held` with one request of source 4 to come. -/
def heldBefore : State := before held (.source 4)

theorem heldBefore_inv : heldBefore.Inv :=
  ⟨⟨by decide, by decide, by decide, by decide, by decide, by decide, by decide⟩,
    by decide, by decide, by decide, by decide, by decide, by decide, by decide⟩

/-! Decode, encode and the step: one witness a clause. -/

theorem witness_stepRuns_host : (before start (evRd 0x8)).cfg.wf = true ∧
    (before start (evRd 0x8)).inputs = .host ((Transaction.r32 0x8).moveTo (start.cfg.base + (Transaction.r32 0x8).place.toNat)) :: [] :=
  ⟨by decide, rfl⟩

theorem witness_stepRuns_others : (before start (.source 1)).inputs = .source 1 :: [] ∧
    (before start .reset).inputs = .reset :: [] ∧ (before start (.host (.read 4 0x0BFFFFFC))).inputs = .host (.read 4 0x0BFFFFFC) :: [] ∧
    0x0BFFFFFC < start.cfg.base ∧ start.cfg.base + 2 ^ 32 ≤ 0x10C000000 ∧ start.inputs = [] := by
  decide

/-- The first and the last index of every row of the register map under the reference configuration. -/
theorem witness_registerMap : Config.reference.wf = true ∧ (1 ≤ 1 ∧ 4 ≤ Config.reference.numSources) ∧
    (0 < Config.reference.numHarts ∧ 1 < Config.reference.numHarts) ∧ 0 < Config.reference.numEnableWords := by decide

theorem witness_decodeOfEncode : Config.reference.wf = true ∧ Instr.wf Config.reference (.enWr 1 0 0xFFFFFFFF) = true ∧
    Instr.wf Config.reference (.prioRd 4) = true ∧ Instr.wf Config.reference (.raise 1) = true ∧
    Instr.wf Config.reference (.badAccess (.read 1 0x4)) = true ∧ Instr.wf Config.reference (.unmapped (.read 4 0x14)) = true := by
  decide

theorem witness_everyRequest : Config.reference.wf = true ∧
    (∀ id, Request.source 4 = .source id → 1 ≤ id ∧ id ≤ Config.reference.numSources) :=
  ⟨by decide, fun id h => by cases h; decide⟩

theorem witness_numericDecode : 1 ≤ 1023 ∧ 1023 ≤ 1023 ∧ 1 ≤ 64 ∧ 64 ≤ 64 ∧ (0x00000FFC#32).toNat % 4 = 0 := by decide

/-! Register rows: a clean state of the invariant under an admitted configuration, with the first and last index in range, the first
out of range, and values at both sides of `MAX_PRIORITY`. -/

theorem witness_registers : start.fault = none ∧ start.Inv ∧ start.Shape ∧ start.cfg.wf = true ∧
    (1 ≤ 1 ∧ 1 ≤ start.cfg.numSources) ∧ (1 ≤ 4 ∧ 4 ≤ start.cfg.numSources) ∧ start.cfg.numSources < 5 ∧
    (0 < start.cfg.numHarts ∧ 1 < start.cfg.numHarts ∧ start.cfg.numHarts ≤ 2) ∧
    (0 < start.cfg.numEnableWords ∧ start.cfg.numEnableWords ≤ 1) ∧
    (7#32).toNat ≤ start.cfg.maxPriority ∧ (7#32).toNat = start.cfg.maxPriority ∧ start.cfg.maxPriority < (8#32).toNat :=
  ⟨rfl, start_inv, start_inv.shape, by decide, by decide, by decide, by decide, by decide, by decide, by decide, by decide, by decide⟩

/-- The word of ID 0 and the word above the last priority word; the first source, context and enable word out of range. -/
theorem witness_unmappedPriority : start.fault = none ∧ start.cfg.wf = true ∧
    (start.cfg.prioOff 0 < 2 ^ 32 ∧ start.cfg.mapped (start.cfg.prioOff 0) = false) ∧
    (start.cfg.numSources < 5 ∧ start.cfg.prioOff 5 < 2 ^ 32 ∧ start.cfg.mapped (start.cfg.prioOff 5) = false) := by decide

theorem witness_indexOutOfRange : start.fault = none ∧ start.cfg.numSources < 5 ∧ start.cfg.numHarts ≤ 2 ∧
    start.cfg.numEnableWords ≤ 1 := by decide

/-- The other word differs in the bits that name no source only. -/
theorem witness_enableWrite_sameNamedBits : ∀ b < 32, 1 ≤ 32 * 0 + b → 32 * 0 + b ≤ start.cfg.numSources →
    (0xFFFFFFE1#32).getLsbD b = (0x00000000#32).getLsbD b := by decide

/-- A pending enabled source of nonzero priority, for the clause on threshold 0. -/
theorem witness_thresholdWrite : both.fault = none ∧ both.Inv ∧ 0 < both.cfg.numHarts ∧ both.ipAt 2 = true ∧
    both.enAt 0 2 = true ∧ both.prioAt 2 ≠ 0#32 :=
  ⟨rfl, both_inv, by decide, by decide, by decide, by decide⟩

theorem witness_arbiterSees : start.Shape ∧ (∃ t, exec (.prioWr 4 7) start = .next t ∧ t.fault = none) ∧
    (∃ t, exec (.enWr 1 0 8) start = .next t ∧ t.fault = none) ∧ (∃ t, exec (.thrWr 1 7) start = .next t ∧ t.fault = none) :=
  ⟨start_inv.shape, ⟨_, rfl, rfl⟩, ⟨_, rfl, rfl⟩, ⟨_, rfl, rfl⟩⟩

theorem witness_outstandingClaim : (∃ t, exec (.prioWr 4 0) held = .next t) ∧
    (∃ t, exec (.complete 0 4) held = .next t ∧ held.hsAt 0 = .inService 4 ∧ t.hsAt 0 ≠ .inService 4) ∧
    (∃ t, exec (.complete 0 4) heldMasked = .next t ∧ heldMasked.cfg.completeRequiresEnable = true) :=
  ⟨⟨_, rfl⟩, ⟨_, rfl, rfl, by decide⟩, ⟨_, rfl, rfl⟩⟩

theorem witness_idempotent : (∃ t, exec (.enWr 0 0 0xFFFFFFFF) start = .next t ∧ t.fault = none) ∧
    (∃ t, exec (.complete 0 4) held = .next t ∧ t.fault = none ∧ t.hsAt 0 = .idle) :=
  ⟨⟨_, rfl, rfl⟩, ⟨_, rfl, rfl, rfl⟩⟩

/-! Source requests, eligibility and the priority encoder. -/

/-- Not pending, pending, in service; the first and the last source. -/
theorem witness_raise : (start.Shape ∧ start.insvcAt 1 = false ∧ start.ipAt 1 = false) ∧ (both.Shape ∧ both.ipAt 4 = true) ∧
    (held.Shape ∧ held.insvcAt 4 = true) ∧ (1 ≤ 1 ∧ 4 ≤ start.cfg.numSources) :=
  ⟨⟨start_inv.shape, rfl, rfl⟩, ⟨both_inv.shape, rfl⟩, ⟨held_inv.shape, rfl⟩, by decide⟩

theorem witness_noSourceLine : (before start (.source 5)).cfg.wf = true ∧ (before start (.source 5)).inputs = .source 5 :: [] ∧
    start.cfg.numSources < 5 := by decide

theorem witness_eligible : (1 ≤ 1 ∧ 4 ≤ both.cfg.numSources) ∧ held.Inv ∧ held.insvcAt 4 = true := ⟨by decide, held_inv, rfl⟩

/-- The empty candidate set; a tie under both settings; a single candidate. -/
theorem witness_encoder : (startOf lowest).cfg.wf = true ∧ (∀ id, ¬ IsCandidate (startOf lowest) 0 id) ∧
    (tie.cfg.wf = true ∧ tie.cfg.tieBreak = .lowestId ∧ IsCandidate tie 0 2 ∧ IsCandidate tie 0 4) ∧
    (tieAny.cfg.wf = true ∧ tieAny.cfg.tieBreak = .any ∧ IsCandidate tieAny 0 4) ∧ (∀ id, IsCandidate both 0 id ↔ id = 4) := by
  refine ⟨by decide, fun id h => ?_, ⟨by decide, rfl, ?_, ?_⟩, ⟨by decide, rfl, ?_⟩, fun id => ?_⟩
  · have := (mem_candidates _ _ _).mpr h
    rw [show candidates (startOf lowest) 0 = [] by decide] at this; cases this
  · exact (mem_candidates _ _ _).mp (by decide)
  · exact (mem_candidates _ _ _).mp (by decide)
  · exact (mem_candidates _ _ _).mp (by decide)
  · rw [IsCandidate, ← mem_candidates, show candidates both 0 = [4] by decide, List.mem_singleton]

theorem witness_higherPriority : both.fault = none ∧ both.cfg.wf = true ∧ 0 < both.cfg.numHarts ∧ both.hsAt 0 = .idle ∧
    eligible both 0 4 = true ∧ eligible both 0 2 = true ∧ (both.prioAt 2).toNat < (both.prioAt 4).toNat := by decide

theorem witness_notification : both.fault = none ∧ both.cfg.wf = true ∧ 0 < both.cfg.numHarts ∧ both.hsAt 0 = .idle ∧
    irqOut both 0 = true ∧ irqOut both 1 = false ∧ both.hsAt 1 = .idle := by decide

theorem witness_masking : both.prioAt 1 = 0#32 ∧ (both.prioAt 3).toNat ≤ (both.thrAt 0).toNat ∧ both.fault = none ∧ both.Shape ∧
    (0 < both.cfg.numHarts ∧ 1 ≤ 4 ∧ 4 ≤ both.cfg.numSources) ∧ (0x04#32).getLsbD (4 % 32) = false ∧
    (0x14#32).getLsbD (4 % 32) = true ∧ both.ipAt 4 = true ∧ (both.thrAt 0).toNat < (both.prioAt 4).toNat :=
  ⟨rfl, by decide, rfl, both_inv.shape, by decide, by decide, by decide, rfl, by decide⟩

/-- A threshold of `MAX_PRIORITY` in a state of the invariant. -/
theorem witness_masking_max : shut.Inv ∧ (shut.thrAt 0).toNat = shut.cfg.maxPriority :=
  ⟨⟨⟨by decide, by decide, by decide, by decide, by decide, by decide, by decide⟩,
    by decide, by decide, by decide, by decide, by decide, by decide, by decide⟩, by decide⟩

/-! The handshake. -/

/-- The rows of rule R150: idle with nothing to pick, idle with a pick, a held claim, its complete taken and ignored, the complete of
another ID (0 included), a complete of an idle context. -/
theorem witness_handshake : (start.fault = none ∧ start.Shape ∧ start.cfg.wf = true ∧ 1 < start.cfg.numHarts ∧
      start.hsAt 1 = .idle ∧ pick start 1 start.drawn = 0) ∧
    (both.fault = none ∧ both.Shape ∧ both.cfg.wf = true ∧ both.hsAt 0 = .idle ∧ pick both 0 both.drawn ≠ 0) ∧
    (held.fault = none ∧ held.Shape ∧ held.cfg.wf = true ∧ held.hsAt 0 = .inService 4 ∧ (4#32).toNat = 4 ∧
      (1 ≤ 4 ∧ 4 ≤ held.cfg.numSources) ∧ held.cfg.completeRequiresEnable = false ∧ (0#32).toNat ≠ 4) ∧
    (heldMasked.fault = none ∧ heldMasked.Shape ∧ heldMasked.cfg.wf = true ∧ heldMasked.hsAt 0 = .inService 4 ∧
      heldMasked.cfg.completeRequiresEnable = true ∧ heldMasked.enAt 0 4 = false) :=
  ⟨⟨rfl, start_inv.shape, by decide, by decide, rfl, by decide⟩, ⟨rfl, both_inv.shape, by decide, rfl, by decide⟩,
    ⟨rfl, held_inv.shape, by decide, rfl, rfl, by decide, rfl, by decide⟩,
    ⟨rfl, heldMasked_inv.shape, by decide, rfl, rfl, rfl⟩⟩

theorem witness_handshakeChange : ∃ t, exec (.complete 0 4) held = .next t ∧ t.hsAt 0 ≠ held.hsAt 0 := ⟨_, rfl, by decide⟩

theorem witness_claim : both.fault = none ∧ both.Shape ∧ both.cfg.wf = true ∧ 0 < both.cfg.numHarts ∧ both.hsAt 0 = .idle ∧
    pick both 0 both.drawn ≠ 0 ∧ (1 ≤ 1 ∧ 1 ≤ both.cfg.numSources ∧ eligible both 0 1 = false) ∧ both.cfg.numHarts ≤ 2 ∧
    (∀ j, eligible start 0 j = false) := by
  refine ⟨rfl, both_inv.shape, by decide, by decide, rfl, by decide, by decide, by decide, fun j => ?_⟩
  by_contra h
  have := (mem_eligibles start 0 j).mpr (Bool.not_eq_false _ ▸ h)
  rw [show eligibles start 0 = [] by decide] at this; cases this

/-- The held ID and the IDs at the ends of the range: 0, 5. -/
theorem witness_complete : held.fault = none ∧ held.Inv ∧ held.cfg.wf = true ∧ 0 < held.cfg.numHarts ∧
    held.hsAt 0 = .inService (4#32).toNat ∧ held.cfg.completeRequiresEnable = false ∧
    held.hsAt 0 ≠ .inService (0#32).toNat ∧ held.cfg.numSources < (5#32).toNat ∧
    (heldMasked.Inv ∧ heldMasked.fault = none ∧ heldMasked.hsAt 0 = .inService (4#32).toNat ∧
      heldMasked.cfg.completeRequiresEnable = true ∧ heldMasked.enAt 0 (4#32).toNat = false) :=
  ⟨rfl, held_inv, by decide, by decide, rfl, rfl, by decide, by decide, heldMasked_inv, rfl, rfl, rfl, rfl⟩

theorem witness_inServiceNotClaimed : held.Inv ∧ held.cfg.wf = true ∧ held.insvcAt 4 = true ∧
    ∃ t, exec (.claim 1) held = .next t := ⟨held_inv, by decide, rfl, _, rfl⟩

/-- Source 4 is enabled for both contexts and pending. -/
theorem witness_oneClaimer : shared.fault = none ∧ shared.Inv ∧ shared.cfg.wf = true ∧ 0 < shared.cfg.numHarts ∧
    1 < shared.cfg.numHarts ∧ shared.hsAt 0 = .idle ∧ shared.hsAt 1 = .idle ∧ eligible shared 0 4 = true ∧
    eligible shared 1 4 = true :=
  ⟨rfl, ⟨⟨by decide, by decide, by decide, by decide, by decide, by decide, by decide⟩,
    by decide, by decide, by decide, by decide, by decide, by decide, by decide⟩, by decide, by decide, by decide, rfl, rfl,
    by decide, by decide⟩

/-- Context 0 claims source 4, completes it and claims again: the second claim completes (it returns source 2). -/
theorem witness_laterClaim : (both.withInputs [evWr 0x200004 4]).Inv ∧ both.cfg.wf = true ∧ 1 ≤ 4 ∧ 4 ≤ both.cfg.numSources ∧
    ∃ t, exec (.claim 0) (both.withInputs [evWr 0x200004 4]) = .next t ∧ t.result = some (BitVec.ofNat 32 4) ∧
      (∀ e ∈ t.inputs, e ≠ .source 4) ∧
      ∃ u, Reaches t u ∧ ∃ v, exec (.claim 0) u = .next v ∧ v.result = some (BitVec.ofNat 32 2) := by
  refine ⟨?_, by decide, by decide, by decide, _, rfl, by decide, fun e he => ?_, _, .step .here rfl, _, rfl, by decide⟩
  · exact ⟨⟨by decide, by decide, by decide, by decide, by decide, by decide, by decide⟩,
      by decide, by decide, by decide, by decide, by decide, by decide, by decide⟩
  · obtain rfl := List.mem_singleton.mp (he : e ∈ [evWr 0x200004 4])
    nofun

theorem witness_completedSource : both.fault = none ∧ both.Inv ∧ both.cfg.wf = true ∧ 0 < both.cfg.numHarts ∧ both.hsAt 0 = .idle ∧
    4 = pick both 0 both.drawn ∧ 4 ≠ 0 := ⟨rfl, both_inv, by decide, by decide, rfl, by decide, by decide⟩

/-- A run of one step, a request of the held source. -/
theorem witness_uncompletedClaim : heldBefore.Inv ∧ heldBefore.hsAt 0 = .inService 4 ∧
    (∀ e ∈ heldBefore.inputs, e ≠ .reset ∧ ¬ IsCompleteOf heldBefore.cfg 0 4 e) ∧
    ∃ t, Reaches heldBefore t ∧ t.inputs = [] ∧ t.fault = none := by
  refine ⟨heldBefore_inv, rfl, fun e he => ?_, _, .step .here rfl, rfl, rfl⟩
  obtain rfl := List.mem_singleton.mp he
  refine ⟨nofun, ?_⟩
  rintro ⟨a, r, data, h, _⟩
  cases h

/-! Faults and reset. -/

theorem witness_badAccess : start.fault = none ∧ (Access.fetch 4 (0x4#32)).kind = .fetch ∧ (Access.read 8 (0x4#32)).size ≠ 4 ∧
    (Access.read 4 (0x6#32)).place.toNat % 4 ≠ 0 := by decide

theorem witness_unmapped : start.fault = none ∧ start.cfg.wf = true ∧ (Transaction.r32 0x14).kind ≠ .fetch ∧
    (Transaction.r32 0x14).size = 4 ∧ (Transaction.r32 0x14).place.toNat % 4 = 0 ∧
    (∀ id ≤ start.cfg.numSources, 1 ≤ id → (Transaction.r32 0x14).place.toNat ≠ start.cfg.prioOff id) ∧
    (∀ c < start.cfg.numHarts, (∀ w < start.cfg.numEnableWords, (Transaction.r32 0x14).place.toNat ≠ start.cfg.enwOff c w) ∧
      (Transaction.r32 0x14).place.toNat ≠ start.cfg.thrOff c ∧ (Transaction.r32 0x14).place.toNat ≠ start.cfg.clmOff c) := by
  decide

/-- Every code of rule R171 on a clean state. -/
theorem witness_oneFault : (start.fault = none ∧ start.cfg.wf = true) ∧
    next (request (rd 0x6) start) (fun t => faultCode t.fault == 1) = true ∧
    next (request (wr 0x0 9) start) (fun t => faultCode t.fault == 2) = true ∧
    next (request (wr 0x4 8) start) (fun t => faultCode t.fault == 3) = true ∧
    next (request (rd 0x200004) held) (fun t => faultCode t.fault == 4) = true ∧
    next (request (wr 0x200004 4) start) (fun t => faultCode t.fault == 5) = true ∧
    next (request (wr 0x200004 4) held) (fun t => faultCode t.fault == 0) = true := by decide

theorem witness_fault : (∃ t, exec (.thrWr 0 8) start = .next t ∧ t.fault = some (.illegalValue 0x200000 8)) ∧
    (faulted.fault = some (.nestedClaim 0 4) ∧ faulted.cfg.wf = true) ∧
    (before faulted (evRd 0x8)).inputs = .host ((Transaction.r32 0x8).moveTo (faulted.cfg.base + (Transaction.r32 0x8).place.toNat)) :: [] ∧
    (∃ t, step (before faulted (.source 2)) = .next t) ∧ (∃ t, step (before faulted .reset) = .next t) :=
  ⟨⟨_, rfl, rfl⟩, ⟨rfl, by decide⟩, rfl, ⟨_, rfl⟩, ⟨_, rfl⟩⟩

theorem witness_reset : State.reset = State.resetWith Config.reference 0 [] ∧ (1 ≤ 1 ∧ 4 ≤ Config.reference.numSources) ∧
    1 < Config.reference.numHarts ∧ (before start .reset).cfg.wf = true ∧ (before start .reset).inputs = .reset :: [] :=
  ⟨rfl, by decide, by decide, by decide, rfl⟩

/-! Rules of the whole machine. -/

theorem witness_stepInvariant : heldBefore.Inv ∧ ∃ t, step heldBefore = .next t := ⟨heldBefore_inv, _, rfl⟩

theorem no_reset {s : State} {e : Event} (h : s.inputs = [e]) (he : e ≠ .reset) : ¬ NextIsReset s := by
  rintro ⟨es, h'⟩
  rw [h] at h'
  exact he (List.cons.inj h').1

/-- The three register changes. -/
theorem witness_registerChanges :
    (∃ t, step (before start (evWr 0x4 7)) = .next t ∧ t.prioAt 1 ≠ start.prioAt 1) ∧
    (∃ t, step (before start (evWr 0x2080 2)) = .next t ∧ t.enAt 1 1 ≠ start.enAt 1 1) ∧
    (∃ t, step (before start (evWr 0x201000 7)) = .next t ∧ t.thrAt 1 ≠ start.thrAt 1) ∧
    start.Shape ∧ ¬ NextIsReset (before start (evWr 0x4 7)) ∧ ¬ NextIsReset (before start (evWr 0x2080 2)) ∧
    ¬ NextIsReset (before start (evWr 0x201000 7)) :=
  ⟨⟨_, rfl, by decide⟩, ⟨_, rfl, by decide⟩, ⟨_, rfl, by decide⟩, start_inv.shape, no_reset rfl nofun, no_reset rfl nofun,
    no_reset rfl nofun⟩

/-- The changes of the interrupt state: a request, a claim, a complete. -/
theorem witness_interruptChanges :
    (∃ t, step (before start (.source 4)) = .next t ∧ start.ipAt 4 = false ∧ t.ipAt 4 = true) ∧
    (∃ t, step (before both (evRd 0x200004)) = .next t ∧ both.ipAt 4 = true ∧ t.ipAt 4 = false ∧ both.insvcAt 4 = false ∧
      t.insvcAt 4 = true ∧ t.hsAt 0 ≠ both.hsAt 0) ∧
    (∃ t, step (before held (evWr 0x200004 4)) = .next t ∧ held.insvcAt 4 = true ∧ t.insvcAt 4 = false) ∧
    both.Shape ∧ held.Shape ∧ ¬ NextIsReset (before start (.source 4)) ∧ ¬ NextIsReset (before both (evRd 0x200004)) ∧
    ¬ NextIsReset (before held (evWr 0x200004 4)) :=
  ⟨⟨_, rfl, rfl, by decide⟩, ⟨_, rfl, by decide, by decide, by decide, by decide, by decide⟩, ⟨_, rfl, by decide, by decide⟩,
    both_inv.shape, held_inv.shape, no_reset rfl nofun, no_reset rfl nofun, no_reset rfl nofun⟩

/-- Context 1 differs in all it has; a claim of context 0 is the instruction. -/
theorem witness_isolation : (∃ t, exec (.claim 0) both = .next t) ∧ addressedContext (.claim 0) ≠ some 1 ∧
    otherContext.cfg = both.cfg ∧ otherContext.prio = both.prio ∧ otherContext.ip = both.ip ∧ otherContext.insvc = both.insvc ∧
    otherContext.fault = both.fault ∧ otherContext.draws = both.draws ∧
    (∀ id, otherContext.enAt 0 id = both.enAt 0 id) ∧ otherContext.thrAt 0 = both.thrAt 0 ∧
    otherContext.hsAt 0 = both.hsAt 0 ∧ otherContext ≠ both :=
  ⟨⟨_, rfl⟩, by decide, rfl, rfl, rfl, rfl, rfl, rfl, fun _ => rfl, rfl, rfl, by decide⟩

/-- The host sequences: a clean state of the right shape, the last context and the last source. -/
theorem witness_sequences : start.fault = none ∧ start.Shape ∧ start.cfg.wf = true ∧ 1 < start.cfg.numHarts ∧ 1 ≤ 4 ∧
    4 ≤ start.cfg.numSources := ⟨rfl, start_inv.shape, by decide, by decide, by decide, by decide⟩

/-- A layout that rule R60 does not admit: the priority words end behind the offsets. -/
def farPriority : State := { start with cfg := { Config.reference with priorityOffset := 0xFFFFFFF0 } }

/-- The last offset word and the first number behind it, an ID whose enable word lies behind it, a context whose registers would, and the
last source of `farPriority`. -/
theorem witness_sequenceOffsets : 0xFFFFFFFF < 2 ^ 32 ∧ 2 ^ 32 ≤ 0x100000000 ∧
    2 ^ 32 ≤ start.cfg.enwOff 0 (0x800000000 / 32) ∧ 2 ^ 32 ≤ start.cfg.thrOff 0x100000 ∧
    2 ^ 32 ≤ start.cfg.clmOff 0x100000 ∧
    (1 ≤ start.cfg.numSources ∧ 2 ^ 32 ≤ start.cfg.enwOff 0x2000000 0) ∧
    (1 ≤ 4 ∧ 4 ≤ farPriority.cfg.numSources ∧ 2 ^ 32 ≤ farPriority.cfg.prioOff 4) := by decide

/-- ENABLE of a huge ID is refused and wraps onto no register (log entry 13). -/
theorem test_driverEnable_beyond : driverEnable 0 0x800000000 start = .refused .notRouted := rfl

/-- DISPATCH with nothing eligible, and with a source to claim, with and without a callback. -/
theorem witness_dispatch : (start.fault = none ∧ start.Inv ∧ start.cfg.wf = true ∧ 0 < start.cfg.numHarts ∧ start.hsAt 0 = .idle ∧
      pick start 0 start.drawn = 0) ∧
    (both.fault = none ∧ both.Inv ∧ both.cfg.wf = true ∧ both.hsAt 0 = .idle ∧ pick both 0 both.drawn = 4) ∧
    (fun id => decide (id = 4)) 4 = true ∧ (fun _ => false) 4 = false :=
  ⟨⟨rfl, start_inv, by decide, by decide, rfl, by decide⟩, ⟨rfl, both_inv, by decide, rfl, both_pick⟩, rfl, rfl⟩

end Sys2Proof.Tests
end

section
/-!
PROOFS, family of 20_memory.md: the accesses that fail the width, alignment and kind checks (rule R52, rule R53, rule R66).
-/

namespace Sys2Proof

theorem isBad_eq_true_iff {t : Transaction} :
    t.isBad = true ↔ t.kind = .fetch ∨ t.size ≠ 4 ∨ t.place.toNat % 4 ≠ 0 := by
  rw [← Bool.not_eq_false, isBad_eq_false_iff]
  simp only [ne_eq, not_and_or, not_not]

end Sys2Proof

namespace Sys2Proof.Machine

theorem exec_badAccess (t : Transaction) (s : State) : exec (.badAccess t) s = execBadAccess t s := rfl

/-- Settles O31: rule R72's checks are exactly the three violations, and BAD_ACCESS does no more than take its fault. -/
theorem badAccessTakesTheFault : Obligations.BadAccessTakesTheFault := by
  constructor
  · intro s t hclean
    refine ⟨s.takeFault (.badAccess t.kind t.size t.place), ?_, tookFault_takeFault s _, rfl⟩
    rw [exec_badAccess, execBadAccess_clean hclean]
  · intro cfg t hviolation
    exact decode_bad (isBad_eq_true_iff.mpr hviolation)

end Sys2Proof.Machine
end

section
/-!
PROOFS, family of 30_encoding.md: every register of the map decodes at its offset (rule R73), and the reserved word of ID 0
(rule R75) is no register.
-/

namespace Sys2Proof

/-- What a 32-bit read and write at a register's offset decode to (rule R72, second table). -/
theorem decode_at_offset {cfg : Config} (hl : cfg.Layout) {g : Target} (hg : g.inRange cfg) (data : Word) :
    decode cfg (.host (Transaction.r32 (g.offset cfg))) = readInstr g ∧
      decode cfg (.host (Transaction.w32 (g.offset cfg) data)) = writeInstr data g :=
  ⟨decode_r32 hl hg, decode_w32 hl hg data⟩

/-- What a 32-bit read and write at an aligned offset without a register decode to (rule R72). -/
theorem decode_at_unmapped_offset {cfg : Config} (hl : cfg.Layout) {off : Nat} (ho : off < 2 ^ 32 ∧ off % 4 = 0)
    (hm : cfg.mapped off = false) (data : Word) :
    decode cfg (.host (Transaction.r32 off)) = .unmapped (Transaction.r32 off) ∧
      decode cfg (.host (Transaction.w32 off data)) = .unmapped (Transaction.w32 off data) := by
  obtain ⟨hread, hwrite⟩ := isBad_r32_w32 ho data
  have hplace : cfg.mapped (BitVec.ofNat 32 off).toNat = false := by
    rwa [BitVec.toNat_ofNat, Nat.mod_eq_of_lt ho.1]
  exact ⟨decode_unmapped hl hread hplace, decode_unmapped hl hwrite hplace⟩

/-- The reserved word of ID 0 belongs to the priority region, which no other register meets, and the sources begin at 1. -/
theorem mapped_priorityOffset {cfg : Config} (hl : cfg.Layout) : cfg.mapped cfg.priorityOffset = false := by
  rw [← Bool.not_eq_true, mapped_iff]
  rintro ⟨g, hg, hoff⟩
  cases g with
  | prio id =>
    have hid : 1 ≤ id := (Machine.isSource_iff.mp hg).1
    simp only [Target.offset, Config.prioOff] at hoff
    omega
  | enable c w =>
    have hw := Machine.isEnableWord_iff.mp hg.2
    have hapart := hl.prio_enable c (Machine.isContext_iff.mp hg.1)
    simp only [Target.offset, Config.enwOff] at hoff
    omega
  | threshold c =>
    have hapart := hl.prio_thr c (Machine.isContext_iff.mp hg)
    simp only [Target.offset] at hoff
    omega
  | claimComplete c =>
    have hapart := hl.prio_clm c (Machine.isContext_iff.mp hg)
    simp only [Target.offset] at hoff
    omega

/-- Settles O4: each row of the map is a target in range, and ID 0 has none. -/
theorem registerMapDecodes : Obligations.RegisterMapDecodes := by
  intro cfg data hwf
  have hl := layout_of_wf hwf
  refine ⟨fun id h1 hN => ?_, fun c hc w hw => ?_, fun c hc => ?_, ?_⟩
  · exact decode_at_offset hl (g := .prio id) (Machine.isSource_of h1 hN) data
  · exact decode_at_offset hl (g := .enable c w) ⟨Machine.isContext_iff.mpr hc, Machine.isEnableWord_iff.mpr hw⟩ data
  · have hctx : cfg.isContext c = true := Machine.isContext_iff.mpr hc
    obtain ⟨hthrRd, hthrWr⟩ := decode_at_offset hl (g := .threshold c) hctx data
    obtain ⟨hclaim, hcomplete⟩ := decode_at_offset hl (g := .claimComplete c) hctx data
    exact ⟨hthrRd, hthrWr, hclaim, hcomplete⟩
  · have hwindow := hl.window_prio
    exact decode_at_unmapped_offset hl ⟨by omega, hl.aligned_prio⟩ (mapped_priorityOffset hl) data

end Sys2Proof
end

section
/-!
PROOFS, family of 40_masking_and_priority.md: what a configuration write does to the state and to eligibility
(rule R101, rule R103, rule R105, rule R106).
-/

namespace Sys2Proof.Machine

/-- Eligibility does not look at the value returned to the host (rule R132). -/
@[simp] theorem eligible_respond (s : State) (v : Option Word) (c id : Nat) :
    eligible (s.respond v) c id = eligible s c id := rfl

section
variable {s : State} (hs : s.Shape)
include hs

theorem prioAt_setPrio_of_shape {id : Nat} (hid : s.cfg.isSource id = true) (p : Word) (j : Nat) :
    (s.setPrio id p).prioAt j = if j = id then p else s.prioAt j := by
  have hentry : 1 ≤ id ∧ id ≤ s.prio.length := hs.prio_length ▸ isSource_iff.mp hid
  simp [prioAt_setPrio, hentry]

theorem thrAt_setThr_of_shape {c : Nat} (hc : s.cfg.isContext c = true) (v : Word) (k : Nat) :
    (s.setThr c v).thrAt k = if k = c then v else s.thrAt k := by
  have hentry : c < s.thr.length := hs.thr_length ▸ isContext_iff.mp hc
  simp [thrAt_setThr, hentry]

theorem eligible_setPrio {id : Nat} (hid : s.cfg.isSource id = true) (p : Word) (c j : Nat) :
    eligible (s.setPrio id p) c j = true ↔ s.cfg.isSource j = true ∧ s.ipAt j = true ∧ s.enAt c j = true ∧
      (s.thrAt c).toNat < (if j = id then p else s.prioAt j).toNat := by
  rw [eligible_iff, prioAt_setPrio_of_shape hs hid]; rfl

theorem eligible_setThr {c : Nat} (hc : s.cfg.isContext c = true) (v : Word) (k j : Nat) :
    eligible (s.setThr c v) k j = true ↔ s.cfg.isSource j = true ∧ s.ipAt j = true ∧ s.enAt k j = true ∧
      (if k = c then v else s.thrAt k).toNat < (s.prioAt j).toNat := by
  rw [eligible_iff, thrAt_setThr_of_shape hs hc]; rfl

theorem eligible_writeEnWord {c : Nat} (hc : s.cfg.isContext c = true) (w : Nat) (data : Word) (k j : Nat) :
    eligible (s.writeEnWord c w data) k j = true ↔ s.cfg.isSource j = true ∧ s.ipAt j = true ∧
      (if k = c ∧ j / 32 = w then data.getLsbD (j % 32) else s.enAt k j) = true ∧
      (s.thrAt k).toNat < (s.prioAt j).toNat := by
  rw [eligible_iff, enAt_writeEnWord_of_shape hs data k j hc, State.writeEnWord_cfg]
  exact and_congr_right fun hj => by simp [hj]

end

/-- Settles O14: a write that did not fault stored its value, and eligibility of the state after it reads that value. -/
theorem arbiterSeesWritesAtOnce : Obligations.ArbiterSeesWritesAtOnce := by
  refine ⟨fun s t id p hs hstep hclean => ?_, fun s t c w data hs hstep hclean => ?_,
    fun s t c v hs hstep hclean => ?_, irqOut_iff⟩
  · obtain ⟨-, ⟨hid, -, rfl⟩ | ⟨r, rfl⟩⟩ := execPrioWr_next hstep
    · exact eligible_setPrio hs hid p
    · cases hclean
  · obtain ⟨-, ⟨hc, -, rfl⟩ | ⟨r, rfl⟩⟩ := execEnWr_next hstep
    · exact eligible_writeEnWord hs hc w data
    · cases hclean
  · obtain ⟨-, ⟨hc, -, rfl⟩ | ⟨r, rfl⟩⟩ := execThrWr_next hstep
    · exact eligible_setThr hs hc v
    · cases hclean

end Sys2Proof.Machine
end

section
/-!
PROOFS, family of 40_masking_and_priority.md: priority and threshold writes (rule R101, rule R105).
-/

namespace Sys2Proof.Machine

/-- A 32-bit write at an aligned offset without a register takes its fault (rule R72, rule R75). -/
theorem request_w32_unmapped {s : State} (hclean : s.fault = none) (hl : s.cfg.Layout) {off : Nat}
    (ho : off < 2 ^ 32 ∧ off % 4 = 0) (hm : s.cfg.mapped off = false) (data : Word) :
    request (.host (Transaction.w32 off data)) s = .next (s.takeFault (.unmapped .write (offWord off))) := by
  rw [request, (decode_at_unmapped_offset hl ho hm data).2]
  exact execUnmapped_clean hclean _

/-- Settles O9: the cases of PRIO_WR by its value, and the words beside the sources' by the decoder. -/
theorem priorityWriteStoresLegalValues : Obligations.PriorityWriteStoresLegalValues := by
  refine ⟨fun s id p hclean hs h1 hN => ?_, fun s id p hclean hwf _ hwindow hm => ?_, fun cfg hwf => ?_⟩
  · have hid := isSource_of h1 hN
    refine ⟨fun hwf => decode_w32 (layout_of_wf hwf) (g := .prio id) hid p, fun hlegal => ?_, fun hillegal => ?_⟩
    · have helig : ∀ c, eligible (s.setPrio id p) c id = true ↔
          s.ipAt id = true ∧ s.enAt c id = true ∧ (s.thrAt c).toNat < p.toNat := fun c => by
        rw [eligible_setPrio hs hid, if_pos rfl]
        exact and_iff_right hid
      refine ⟨_, execPrioWr_legal hclean hid hlegal, ?_, fun j hj => ?_, rfl, rfl, ⟨rfl, rfl, rfl⟩, hclean, rfl,
        ⟨rfl, rfl⟩, rfl, helig, fun hzero c => ?_⟩
      · exact (prioAt_setPrio_of_shape hs hid p id).trans (if_pos rfl)
      · exact (prioAt_setPrio_of_shape hs hid p j).trans (if_neg hj)
      · rw [eligible_respond, ← Bool.not_eq_true, helig, hzero]
        exact fun ⟨_, _, habove⟩ => Nat.not_lt_zero _ habove
    · exact ⟨_, execPrioWr_illegal hclean hid hillegal, tookFault_takeFault s _⟩
  · have hl := layout_of_wf hwf
    have haligned : s.cfg.prioOff id % 4 = 0 := by
      have := hl.aligned_prio
      rw [Config.prioOff]; omega
    exact ⟨_, request_w32_unmapped hclean hl ⟨hwindow, haligned⟩ hm p, tookFault_takeFault s _⟩
  · have hl := layout_of_wf hwf
    have hwindow := hl.window_prio
    exact ⟨by rw [Config.prioOff]; omega, mapped_priorityOffset hl⟩

/-- Settles O13: the cases of THR_WR by its value; the invariant keeps every priority at or below `MAX_PRIORITY`. -/
theorem thresholdWriteStoresLegalValues : Obligations.ThresholdWriteStoresLegalValues := by
  intro s c v hclean hinv hcontext
  have hs := hinv.shape
  have hc : s.cfg.isContext c = true := isContext_iff.mpr hcontext
  refine ⟨fun hwf => decode_w32 (layout_of_wf hwf) (g := .threshold c) hc v, fun hlegal => ?_, fun hillegal => ?_⟩
  · have helig : ∀ id, eligible (s.setThr c v) c id = true ↔ s.cfg.isSource id = true ∧ s.ipAt id = true ∧
        s.enAt c id = true ∧ v.toNat < (s.prioAt id).toNat := fun id => by
      rw [eligible_setThr hs hc, if_pos rfl]
    refine ⟨_, execThrWr_legal hclean hc hlegal, ?_, fun k hk => ?_, rfl, rfl, ⟨rfl, rfl, rfl⟩, hclean, rfl,
      ⟨rfl, rfl⟩, rfl, fun id h1 hN => ?_, fun hzero id h1 hN hip hen hprio => ?_, fun hmax id => ?_⟩
    · exact (thrAt_setThr_of_shape hs hc v c).trans (if_pos rfl)
    · exact (thrAt_setThr_of_shape hs hc v k).trans (if_neg hk)
    · exact (helig id).trans (and_iff_right (isSource_of h1 hN))
    · refine (helig id).mpr ⟨isSource_of h1 hN, hip, hen, ?_⟩
      rw [hzero]
      exact Nat.pos_of_ne_zero fun h => hprio (BitVec.eq_of_toNat_eq h)
    · rw [eligible_respond, ← Bool.not_eq_true, helig]
      rintro ⟨hid, -, -, habove⟩
      have hprio := hinv.prio_legal id (isSource_iff.mp hid).2
      omega
  · exact ⟨_, execThrWr_illegal hclean hc hillegal, tookFault_takeFault s _⟩

end Sys2Proof.Machine
end

section
/-!
PROOFS, family of 40_masking_and_priority.md: reads and writes of enable words (rule R102, rule R103).
-/

namespace Sys2Proof.Machine

/-- Settles O10: a read returns the word of stored and free bits and uses one free value. -/
theorem enableReadReturnsStoredAndFreeBits : Obligations.EnableReadReturnsStoredAndFreeBits := by
  intro s c w hclean hcontext hword
  have hc : s.cfg.isContext c = true := isContext_iff.mpr hcontext
  have hw : s.cfg.isEnableWord w = true := isEnableWord_iff.mpr hword
  refine ⟨⟨_, s.enWord c w s.drawn, execEnRd_word hclean hc hw, rfl, fun b hb => ?_, rfl, hclean, ⟨rfl, rfl, rfl⟩,
    ⟨rfl, rfl, rfl⟩, rfl, rfl⟩, fun hwf => decode_r32 (layout_of_wf hwf) (g := .enable c w) ⟨hc, hw⟩⟩
  rw [getLsbD_enWord s c w s.drawn hb]
  simp only [isSource_iff]

/-- The write of an enable word looks at the bits that name a source only (rule R103). -/
theorem writeEnWord_congr {s : State} {w : Nat} {data data' : Word}
    (h : ∀ b < 32, 1 ≤ 32 * w + b → 32 * w + b ≤ s.cfg.numSources → data'.getLsbD b = data.getLsbD b) (c : Nat) :
    s.writeEnWord c w data' = s.writeEnWord c w data := by
  have hrow : (List.range' 1 s.cfg.numSources).map (s.enBitAfter c w data') =
      (List.range' 1 s.cfg.numSources).map (s.enBitAfter c w data) := by
    refine List.map_congr_left fun id hid => ?_
    rw [List.mem_range'_1] at hid
    by_cases hw : id / 32 = w
    · have hbit := h (id % 32) (by omega) (by omega) (by omega)
      simp [State.enBitAfter, hbit]
    · simp [State.enBitAfter, hw]
  rw [State.writeEnWord, State.writeEnWord, hrow]

/-- Settles O11: each enable bit after the write is a data bit or the bit before, and the state after the write is the same for
every data word with the same named bits. -/
theorem enableWriteStoresNamedBits : Obligations.EnableWriteStoresNamedBits := by
  intro s c w data hclean hs hcontext hword
  have hc : s.cfg.isContext c = true := isContext_iff.mpr hcontext
  have hw : s.cfg.isEnableWord w = true := isEnableWord_iff.mpr hword
  have hbit := fun k j => enAt_writeEnWord_of_shape hs (w := w) data k j hc
  refine ⟨fun hwf => decode_w32 (layout_of_wf hwf) (g := .enable c w) ⟨hc, hw⟩ data,
    _, execEnWr_word hclean hc hw, fun b hb h1 hN => ?_, fun id hid => ?_, fun k id hk => ?_, fun data' hsame => ?_,
    rfl, rfl, ⟨rfl, rfl, rfl⟩, hclean, rfl, ⟨rfl, rfl⟩, rfl⟩
  · have hdiv : (32 * w + b) / 32 = w := by omega
    have hmod : (32 * w + b) % 32 = b := by omega
    rw [State.enAt_respond, hbit, if_pos ⟨rfl, isSource_of h1 hN, hdiv⟩, hmod]
  · rw [State.enAt_respond, hbit, if_neg fun h => hid h.2.2]
  · rw [State.enAt_respond, hbit, if_neg fun h => hk h.1]
  · rw [← writeEnWord_congr hsame]
    exact execEnWr_word hclean hc hw

end Sys2Proof.Machine
end

section
/-!
PROOFS, family of 40_masking_and_priority.md: a claim is outstanding until its complete (rule R107).
-/

namespace Sys2Proof.Machine

/-- All that an instruction can do to the handshakes: leave them, a claim of an idle context takes the picked source, a
complete of the held ID retires it. -/
theorem exec_hs_cases {i : Instr} {s t : State} (h : exec i s = .next t) :
    t.hs = s.hs ∨
    (∃ c, i = .claim c ∧ s.hsAt c = .idle ∧ pick s c s.drawn ≠ 0 ∧
      t.hs = s.hs.set c (.inService (pick s c s.drawn))) ∨
    (∃ c data, i = .complete c data ∧ s.hsAt c = .inService data.toNat ∧ t.hs = s.hs.set c .idle) := by
  cases i with
  | claim c =>
    obtain ⟨-, ⟨-, hidle, rfl⟩ | ⟨x, -, -, rfl⟩ | ⟨-, rfl⟩⟩ := execClaim_next h
    · by_cases hpick : pick s c s.drawn = 0
      · exact Or.inl (by simp [hpick])
      · exact Or.inr (Or.inl ⟨c, rfl, hidle, hpick, by simp [State.markClaimed_of_ne s hpick]⟩)
    · exact Or.inl rfl
    · exact Or.inl rfl
  | complete c data =>
    obtain ⟨-, ⟨-, hheld, -, rfl⟩ | ⟨-, -, -, rfl⟩ | ⟨r, rfl⟩⟩ := execComplete_next h
    · exact Or.inr (Or.inr ⟨c, data, rfl, hheld, rfl⟩)
    · exact Or.inl rfl
    · exact Or.inl rfl
  | prioRd id => obtain ⟨-, ⟨-, rfl⟩ | ⟨-, rfl⟩⟩ := execPrioRd_next h <;> exact Or.inl rfl
  | prioWr id p => obtain ⟨-, ⟨-, -, rfl⟩ | ⟨r, rfl⟩⟩ := execPrioWr_next h <;> exact Or.inl rfl
  | enRd c w => obtain ⟨-, ⟨-, -, rfl⟩ | ⟨r, rfl⟩⟩ := execEnRd_next h <;> exact Or.inl rfl
  | enWr c w data => obtain ⟨-, ⟨-, -, rfl⟩ | ⟨r, rfl⟩⟩ := execEnWr_next h <;> exact Or.inl rfl
  | thrRd c => obtain ⟨-, ⟨-, rfl⟩ | ⟨r, rfl⟩⟩ := execThrRd_next h <;> exact Or.inl rfl
  | thrWr c v => obtain ⟨-, ⟨-, -, rfl⟩ | ⟨r, rfl⟩⟩ := execThrWr_next h <;> exact Or.inl rfl
  | raise id => obtain ⟨-, ⟨-, -, rfl⟩ | ⟨-, rfl⟩⟩ := execRaise_next h <;> exact Or.inl rfl
  | badAccess a => obtain ⟨-, rfl⟩ := execBadAccess_next h; exact Or.inl rfl
  | unmapped a => obtain ⟨-, rfl⟩ := execUnmapped_next h; exact Or.inl rfl

/-- Writing the handshake of another context is no change to this one. -/
theorem hsAt_of_hs_set {s t : State} {c k : Nat} {hnew : Handshake} (h : t.hs = s.hs.set k hnew) (hne : c ≠ k) :
    t.hsAt c = s.hsAt c := by
  rw [State.hsAt, h, getD_set, if_neg fun h' => hne h'.1, State.hsAt]

/-- A held ID is given up by its own complete only (rule R107). -/
theorem complete_of_released {s t : State} {i : Instr} {c x : Nat} (hstep : exec i s = .next t)
    (hheld : s.hsAt c = .inService x) (hreleased : t.hsAt c ≠ .inService x) :
    ∃ data : Word, i = .complete c data ∧ data.toNat = x := by
  rcases exec_hs_cases hstep with hkept | ⟨k, rfl, hidle, -, hset⟩ | ⟨k, data, rfl, hk, hset⟩
  · exact absurd (by rw [State.hsAt, hkept]; exact hheld) hreleased
  · have hne : c ≠ k := fun h => by subst h; rw [hheld] at hidle; cases hidle
    exact absurd ((hsAt_of_hs_set hset hne).trans hheld) hreleased
  · by_cases hck : c = k
    · subst hck
      exact ⟨data, rfl, Handshake.inService.inj (hk.symm.trans hheld)⟩
    · exact absurd ((hsAt_of_hs_set hset hck).trans hheld) hreleased

/-- What a complete does to in-service bits, handshakes and fault record depends on the configuration, these three and, with
`COMPLETE_REQUIRES_ENABLE`, the context's enable bits (rule R107, rule R152). -/
theorem complete_congr {s s' t : State} {c : Nat} {data : Word} (hcfg : s'.cfg = s.cfg) (hinsvc : s'.insvc = s.insvc)
    (hhs : s'.hs = s.hs) (hfault : s'.fault = s.fault)
    (hen : s.cfg.completeRequiresEnable = true → ∀ id, s'.enAt c id = s.enAt c id)
    (hstep : exec (.complete c data) s = .next t) :
    ∃ t', exec (.complete c data) s' = .next t' ∧ t'.insvc = t.insvc ∧ t'.hs = t.hs ∧ t'.fault = t.fault := by
  have hhsAt : s'.hsAt c = s.hsAt c := by rw [State.hsAt, hhs, State.hsAt]
  have hclean : s.fault = none := (execComplete_next hstep).1
  have hclean' : s'.fault = none := hfault.trans hclean
  cases hctx : s.cfg.isContext c with
  | false =>
    cases hstep.symm.trans (execComplete_unmapped hclean hctx)
    exact ⟨_, execComplete_unmapped hclean' (hcfg ▸ hctx), hinsvc, hhs, by rw [hcfg]; rfl⟩
  | true =>
    have hctx' : s'.cfg.isContext c = true := hcfg ▸ hctx
    by_cases hheld : s.hsAt c = .inService data.toNat
    · by_cases htaken : s.cfg.completeRequiresEnable = false ∨ s.enAt c data.toNat = true
      · have htaken' : s'.cfg.completeRequiresEnable = false ∨ s'.enAt c data.toNat = true := by
          rw [hcfg]
          cases hrequires : s.cfg.completeRequiresEnable with
          | false => exact Or.inl rfl
          | true => exact Or.inr ((hen hrequires _).trans (htaken.resolve_left (by simp [hrequires])))
        cases hstep.symm.trans (execComplete_taken hclean hctx hheld htaken)
        exact ⟨_, execComplete_taken hclean' hctx' (hhsAt.trans hheld) htaken', by simp [hinsvc], by simp [hhs], hfault⟩
      · obtain ⟨hrequires, hoff⟩ : s.cfg.completeRequiresEnable = true ∧ s.enAt c data.toNat = false := by
          simpa [not_or] using htaken
        cases hstep.symm.trans (execComplete_ignored hclean hctx hheld hrequires hoff)
        exact ⟨_, execComplete_ignored hclean' hctx' (hhsAt.trans hheld) (hcfg ▸ hrequires)
          ((hen hrequires _).trans hoff), hinsvc, hhs, hfault⟩
    · cases hstep.symm.trans (execComplete_bad hclean hctx hheld)
      exact ⟨_, execComplete_bad hclean' hctx' (hhsAt ▸ hheld), hinsvc, hhs, by rw [hhsAt]; rfl⟩

/-- Settles O15: no configuration write touches the handshakes, only the complete of the held ID ends a claim, and that
complete reads no priority and no threshold. -/
theorem outstandingClaimSurvivesConfigurationWrites : Obligations.OutstandingClaimSurvivesConfigurationWrites := by
  refine ⟨?_, fun s t i c x => complete_of_released, fun s s' t c data => complete_congr⟩
  rintro s t i hstep (⟨id, p, rfl⟩ | ⟨c, w, data, rfl⟩ | ⟨c, v, rfl⟩)
  · obtain ⟨-, ⟨-, -, rfl⟩ | ⟨r, rfl⟩⟩ := execPrioWr_next hstep <;> exact ⟨rfl, rfl⟩
  · obtain ⟨-, ⟨-, -, rfl⟩ | ⟨r, rfl⟩⟩ := execEnWr_next hstep <;> exact ⟨rfl, rfl⟩
  · obtain ⟨-, ⟨-, -, rfl⟩ | ⟨r, rfl⟩⟩ := execThrWr_next hstep <;> exact ⟨rfl, rfl⟩

end Sys2Proof.Machine
end

section
/-!
PROOFS, family of 41_arbiter.md: source requests and eligibility (rule R130, rule R132).
-/

namespace Sys2Proof.Machine

theorem ipAt_setIp_of_shape {s : State} (hs : s.Shape) {id : Nat} (hid : s.cfg.isSource id = true) (b : Bool) (j : Nat) :
    (s.setIp id b).ipAt j = if j = id then b else s.ipAt j := by
  have hentry : 1 ≤ id ∧ id ≤ s.ip.length := hs.ip_length ▸ isSource_iff.mp hid
  simp [ipAt_setIp, hentry]

/-- Settles O17: a request is merged when the source is pending or in service, and otherwise sets its pending bit alone. -/
theorem raiseSetsPendingUnlessInService : Obligations.RaiseSetsPendingUnlessInService := by
  intro s id hs h1 hN
  have hid := isSource_of h1 hN
  refine ⟨rfl, ?_⟩
  by_cases hmerged : s.insvcAt id = true ∨ s.ipAt id = true
  · refine ⟨_, execRaise_merged hid hmerged, fun hinsvc hip => ?_, fun _ => rfl, fun _ _ => rfl, rfl, rfl,
      ⟨rfl, rfl, rfl⟩, rfl, rfl, ⟨rfl, rfl⟩, rfl⟩
    simp [hinsvc, hip] at hmerged
  · obtain ⟨hinsvc, hip⟩ : s.insvcAt id = false ∧ s.ipAt id = false := by simpa [not_or] using hmerged
    have hbit := ipAt_setIp_of_shape hs hid true
    exact ⟨_, execRaise_new hid hinsvc hip, fun _ _ => (hbit id).trans (if_pos rfl), fun h => absurd h hmerged,
      fun j hj => (hbit j).trans (if_neg hj), rfl, rfl, ⟨rfl, rfl, rfl⟩, rfl, rfl, ⟨rfl, rfl⟩, rfl⟩

/-- Settles O19: an eligible source is pending, so by the invariant not in service (rule R28.1). -/
theorem eligibleMeansPendingEnabledAboveThreshold : Obligations.EligibleMeansPendingEnabledAboveThreshold := by
  refine ⟨fun s c id h1 hN => (eligible_iff s c id).trans (and_iff_right (isSource_of h1 hN)),
    fun s c id hinv hinsvc => ?_⟩
  rw [← Bool.not_eq_true, eligible_iff]
  rintro ⟨hid, hip, -, -⟩
  have hfree := hinv.pending_not_inService id (isSource_iff.mp hid).2 hip
  exact Bool.false_ne_true (hfree.symm.trans hinsvc)

end Sys2Proof.Machine
end

section
/-!
PROOFS, family of 41_arbiter.md: the priority encoder and the notification (rule R134, rule R136).
-/

namespace Sys2Proof.Machine

/-- Each source has a priority word in the window of `2^32` bytes, so an ID fits a word (rule R60). -/
theorem numSources_lt_of_wf {cfg : Config} (hwf : cfg.wf = true) : cfg.numSources < 2 ^ 32 := by
  have hwindow := (layout_of_wf hwf).window_prio
  omega

theorem length_candidates_le (s : State) (c : Nat) : (candidates s c).length ≤ s.cfg.numSources :=
  calc (candidates s c).length
    _ ≤ (eligibles s c).length := List.length_filter_le _ _
    _ ≤ (List.range' 1 s.cfg.numSources).length := List.length_filter_le _ _
    _ = s.cfg.numSources := List.length_range'

theorem mem_candidates_iff (s : State) (c id : Nat) : id ∈ candidates s c ↔ IsCandidate s c id := mem_candidates s c id

theorem candidates_ne_nil_of {s : State} {c id : Nat} (h : IsCandidate s c id) : candidates s c ≠ [] :=
  List.ne_nil_of_mem ((mem_candidates_iff s c id).mpr h)

/-- Where there is a candidate, the encoder answers one, under both settings. -/
theorem isCandidate_pick {s : State} {c id : Nat} (h : IsCandidate s c id) (k : Word) : IsCandidate s c (pick s c k) := by
  obtain ⟨hnil, -⟩ | ⟨-, hmem⟩ := pick_spec s c k
  · exact absurd hnil (candidates_ne_nil_of h)
  · exact (mem_candidates_iff s c _).mp hmem

theorem pick_of_lowestId {s : State} {c : Nat} (htie : s.cfg.tieBreak = .lowestId) (hne : candidates s c ≠ []) (k : Word) :
    pick s c k = (candidates s c).min?.getD 0 := by
  simp [pick, htie, hne]

theorem pick_of_any {s : State} {c : Nat} (htie : s.cfg.tieBreak = .any) (hne : candidates s c ≠ []) (k : Word) :
    pick s c k = choose (candidates s c) k := by
  simp [pick, htie, hne]

/-- Every element of a list whose positions fit a word is selected by the word of its position. -/
theorem exists_choose_eq {l : List Nat} (hlen : l.length ≤ 2 ^ 32) {j : Nat} (hj : j ∈ l) : ∃ k, choose l k = j := by
  obtain ⟨i, hi, rfl⟩ := List.getElem_of_mem hj
  have hindex : (BitVec.ofNat 32 i).toNat % l.length = i := by
    rw [BitVec.toNat_ofNat, Nat.mod_eq_of_lt (Nat.lt_of_lt_of_le hi hlen), Nat.mod_eq_of_lt hi]
  exact ⟨BitVec.ofNat 32 i, by rw [choose, hindex, List.getD_eq_getElem _ _ hi]⟩

/-- Settles O20: the encoder answers a candidate where there is one, the least one or the one at a free position. -/
theorem encoderPicksACandidate : Obligations.EncoderPicksACandidate := by
  intro s c hwf
  refine ⟨fun hnone k => ?_, fun htie ⟨id, hid⟩ k => ⟨isCandidate_pick hid k, fun j hj => ?_⟩,
    fun htie ⟨id, hid⟩ => ⟨isCandidate_pick hid, fun j hj => ?_⟩, fun j hsingle k => ?_⟩
  · obtain ⟨-, hzero⟩ | ⟨-, hmem⟩ := pick_spec s c k
    · exact hzero
    · exact absurd ((mem_candidates_iff s c _).mp hmem) (hnone _)
  · rw [pick_of_lowestId htie (candidates_ne_nil_of hid)]
    exact List.min?_getD_le_of_mem ((mem_candidates_iff s c j).mpr hj)
  · have hlen : (candidates s c).length ≤ 2 ^ 32 :=
      Nat.le_trans (length_candidates_le s c) (numSources_lt_of_wf hwf).le
    obtain ⟨k, hk⟩ := exists_choose_eq hlen ((mem_candidates_iff s c j).mpr hj)
    exact ⟨k, (pick_of_any htie (candidates_ne_nil_of hid) k).trans hk⟩
  · exact (hsingle _).mp (isCandidate_pick ((hsingle j).mpr rfl) k)

theorem irqOut_iff_pick_ne_zero (s : State) (c : Nat) (k : Word) : irqOut s c = true ↔ pick s c k ≠ 0 := by
  rw [ne_eq, pick_eq_zero_iff]
  simp [irqOut]

theorem pick_le_numSources (s : State) (c : Nat) (k : Word) : pick s c k ≤ s.cfg.numSources := by
  by_cases hpick : pick s c k = 0
  · exact hpick ▸ Nat.zero_le _
  · exact (isSource_iff.mp (isSource_of_pick hpick)).2

/-- The word of a picked ID is 0 for ID 0 only. -/
theorem ofNat_pick_eq_zero_iff {s : State} (hwf : s.cfg.wf = true) (c : Nat) (k : Word) :
    BitVec.ofNat 32 (pick s c k) = 0#32 ↔ pick s c k = 0 := by
  have hlt := Nat.lt_of_le_of_lt (pick_le_numSources s c k) (numSources_lt_of_wf hwf)
  rw [← BitVec.toNat_inj, BitVec.toNat_ofNat, Nat.mod_eq_of_lt hlt]
  rfl

/-- Settles O22: a clean claim of an idle context returns the encoder's answer, which is 0 exactly when no source is eligible. -/
theorem notificationMeansAClaimReturnsAnId : Obligations.NotificationMeansAClaimReturnsAnId := by
  refine ⟨irqOut_iff, fun s c hclean hwf hcontext hidle => ?_⟩
  refine ⟨_, _, execClaim_idle hclean (isContext_iff.mpr hcontext) hidle, rfl, ?_⟩
  rw [irqOut_iff_pick_ne_zero s c s.drawn, ne_eq, ne_eq, ofNat_pick_eq_zero_iff hwf]

end Sys2Proof.Machine
end

section
/-!
PROOFS, family of 42_claim_complete.md: the marking of a claimed source and the retiring of a completed one on a state of the
right shape (rule R151, rule R152), and the IDs a claim can return.
-/

namespace Sys2Proof.Machine

section
variable {s : State} (hs : s.Shape)
include hs

theorem ipAt_markClaimed_of_shape {id : Nat} (hid : s.cfg.isSource id = true) (c j : Nat) :
    (s.markClaimed c id).ipAt j = if j = id then false else s.ipAt j := by
  have hentry : 1 ≤ id ∧ id ≤ s.ip.length := hs.ip_length ▸ isSource_iff.mp hid
  simp [ipAt_markClaimed s c id j (Nat.ne_zero_of_lt hentry.1), hentry]

theorem insvcAt_markClaimed_of_shape {id : Nat} (hid : s.cfg.isSource id = true) (c j : Nat) :
    (s.markClaimed c id).insvcAt j = if j = id then true else s.insvcAt j := by
  have hentry : 1 ≤ id ∧ id ≤ s.insvc.length := hs.insvc_length ▸ isSource_iff.mp hid
  simp [insvcAt_markClaimed s c id j (Nat.ne_zero_of_lt hentry.1), hentry]

theorem hsAt_markClaimed_of_shape {c id : Nat} (hc : s.cfg.isContext c = true) (hid : id ≠ 0) (k : Nat) :
    (s.markClaimed c id).hsAt k = if k = c then .inService id else s.hsAt k := by
  have hentry : c < s.hs.length := hs.hs_length ▸ isContext_iff.mp hc
  simp [hsAt_markClaimed s c id k hid, hentry]

theorem insvcAt_retire_of_shape {id : Nat} (hid : s.cfg.isSource id = true) (c j : Nat) :
    (s.retire c id).insvcAt j = if j = id then false else s.insvcAt j := by
  have hentry : 1 ≤ id ∧ id ≤ s.insvc.length := hs.insvc_length ▸ isSource_iff.mp hid
  simp [insvcAt_retire, hentry]

theorem hsAt_retire_of_shape {c : Nat} (hc : s.cfg.isContext c = true) (id k : Nat) :
    (s.retire c id).hsAt k = if k = c then .idle else s.hsAt k := by
  have hentry : c < s.hs.length := hs.hs_length ▸ isContext_iff.mp hc
  simp [hsAt_retire, hentry]

end

/-- A source that is not pending is eligible for no context (rule R132). -/
theorem not_eligible_of_not_pending {s : State} {id : Nat} (h : s.ipAt id = false) (k : Nat) :
    eligible s k id = false := by
  simp [eligible, h]

theorem pick_eq_zero_of_none_eligible {s : State} {c : Nat} (h : ∀ j, eligible s c j = false) (k : Word) :
    pick s c k = 0 := by
  by_contra hpick
  exact Bool.false_ne_true ((h _).symm.trans (eligible_of_pick hpick))

/-- A claim's word names no source that is not eligible: the picked ID is eligible or 0, and IDs up to `N` have words of
their own. -/
theorem ofNat_pick_ne_of_not_eligible {s : State} (hwf : s.cfg.wf = true) {c j : Nat} (h1 : 1 ≤ j)
    (hN : j ≤ s.cfg.numSources) (hj : eligible s c j = false) (k : Word) :
    BitVec.ofNat 32 (pick s c k) ≠ BitVec.ofNat 32 j := by
  intro hword
  have hbound := numSources_lt_of_wf hwf
  have hle := pick_le_numSources s c k
  have hpick : pick s c k = j := by
    rwa [← BitVec.toNat_inj, BitVec.toNat_ofNat, BitVec.toNat_ofNat, Nat.mod_eq_of_lt (by omega),
      Nat.mod_eq_of_lt (by omega)] at hword
  have helig : eligible s c (pick s c k) = true := eligible_of_pick (by omega)
  rw [hpick, hj] at helig
  exact Bool.false_ne_true helig

end Sys2Proof.Machine
end

section
/-!
PROOFS, family of 42_claim_complete.md: CLAIM, COMPLETE and the table of the handshake's transitions (rule R150 to rule R152).
-/

namespace Sys2Proof.Machine

/-- Settles O25: a claim of an idle context marks the encoder's choice, which is an eligible source or 0. -/
theorem claimReturnsAndMarksThePick : Obligations.ClaimReturnsAndMarksThePick := by
  intro s c hclean hs hwf hcontext
  have hc : s.cfg.isContext c = true := isContext_iff.mpr hcontext
  refine ⟨decode_r32 (layout_of_wf hwf) (g := .claimComplete c) hc,
    fun x hheld => ⟨_, execClaim_nested hclean hc hheld, tookFault_takeFault s _⟩, fun hidle => ?_⟩
  refine ⟨_, _, rfl, execClaim_idle hclean hc hidle, rfl, by simp [hclean], by simp [SameRegisters],
    by simp [SameSetting], by simp, fun hnone => pick_eq_zero_of_none_eligible hnone _,
    fun j h1 hN hj => ?_, fun hzero => ?_, fun hpick => ?_⟩
  · exact (Option.some_injective _).ne (ofNat_pick_ne_of_not_eligible hwf h1 hN hj _)
  · rw [hzero]
    exact ⟨rfl, rfl, rfl⟩
  · have hid := isSource_of_pick hpick
    have hip := ipAt_markClaimed_of_shape hs hid c
    have hinsvc := insvcAt_markClaimed_of_shape hs hid c
    have hhs := hsAt_markClaimed_of_shape hs hc hpick
    have hnotPending := (hip _).trans (if_pos rfl)
    exact ⟨hnotPending, (hinsvc _).trans (if_pos rfl), (hhs c).trans (if_pos rfl),
      fun j hj => ⟨(hip j).trans (if_neg hj), (hinsvc j).trans (if_neg hj)⟩,
      fun k hk => (hhs k).trans (if_neg hk), not_eligible_of_not_pending hnotPending⟩

/-- By the invariant a context holds IDs of `1..N` only, so a complete of any other value is a bad one (rule R26, rule R152). -/
theorem hsAt_ne_inService_of_not_source {s : State} (hinv : s.Inv) {id : Nat} (h : id = 0 ∨ s.cfg.numSources < id)
    (c : Nat) : s.hsAt c ≠ .inService id := by
  intro hheld
  obtain ⟨-, h1, hN⟩ := held_in_range hinv hheld
  omega

/-- A complete of a value the context does not hold takes its fault, which records the handshake found (rule R152, rule R171). -/
theorem execComplete_bad_of_hsAt {s : State} (hclean : s.fault = none) {c : Nat} (hc : s.cfg.isContext c = true)
    {found : Handshake} (hfound : s.hsAt c = found) {v : Word} (hother : found ≠ .inService v.toNat) :
    execComplete c v s = .next (s.takeFault (.badComplete c v found)) := by
  subst hfound
  exact execComplete_bad hclean hc hother

/-- Settles O26: the cases of COMPLETE by the value and the enable bit; the second complete finds the context idle. -/
theorem completeRetiresTheHeldId : Obligations.CompleteRetiresTheHeldId := by
  intro s c v hclean hinv hcontext
  have hs := hinv.shape
  have hc : s.cfg.isContext c = true := isContext_iff.mpr hcontext
  refine ⟨fun hwf => decode_w32 (layout_of_wf hwf) (g := .claimComplete c) hc v,
    fun hother => ⟨_, execComplete_bad hclean hc hother, tookFault_takeFault s _⟩, fun hv => ?_,
    fun hheld htaken => ?_, fun hheld hrequires hoff => ?_⟩
  · exact hsAt_ne_inService_of_not_source hinv (hv.imp_left fun h => h ▸ rfl) c
  · obtain ⟨-, h1, hN⟩ := held_in_range hinv hheld
    have hinsvc := insvcAt_retire_of_shape hs (isSource_of h1 hN) c
    have hhs := hsAt_retire_of_shape hs hc v.toNat
    have hidle : ((s.retire c v.toNat).respond none).hsAt c = .idle := (hhs c).trans (if_pos rfl)
    refine ⟨_, _, execComplete_taken hclean hc hheld htaken, (hinsvc _).trans (if_pos rfl), hidle,
      fun j hj => (hinsvc j).trans (if_neg hj), fun k hk => (hhs k).trans (if_neg hk), rfl, ⟨rfl, rfl, rfl⟩, hclean, rfl,
      ⟨rfl, rfl⟩, rfl, execComplete_bad_of_hsAt (s := (s.retire c v.toNat).respond none) hclean hc hidle nofun,
      tookFault_takeFault _ _⟩
  · exact ⟨_, execComplete_ignored hclean hc hheld hrequires hoff, ⟨rfl, rfl, rfl⟩, ⟨rfl, rfl, rfl⟩, hclean, rfl,
      ⟨rfl, rfl⟩, rfl⟩

/-- A context's handshake is changed by a claim or a complete of that context only (rule R150). -/
theorem claim_or_complete_of_hsAt_ne {s t : State} {i : Instr} {c : Nat} (hstep : exec i s = .next t)
    (hchanged : t.hsAt c ≠ s.hsAt c) : i = .claim c ∨ ∃ v, i = .complete c v := by
  rcases exec_hs_cases hstep with hkept | ⟨k, rfl, -, -, hset⟩ | ⟨k, data, rfl, -, hset⟩
  · exact absurd (by rw [State.hsAt, hkept, State.hsAt]) hchanged
  · have hk : c = k := by_contra fun hne => hchanged (hsAt_of_hs_set hset hne)
    exact Or.inl (hk ▸ rfl)
  · have hk : c = k := by_contra fun hne => hchanged (hsAt_of_hs_set hset hne)
    exact Or.inr ⟨data, hk ▸ rfl⟩

/-- Settles O24: each row of the table is a case of CLAIM or COMPLETE, and no other instruction writes the handshake. -/
theorem handshakeTransitions : Obligations.HandshakeTransitions := by
  refine ⟨fun s c hclean hs _ hcontext => ?_, fun s t i c => claim_or_complete_of_hsAt_ne⟩
  have hc : s.cfg.isContext c = true := isContext_iff.mpr hcontext
  refine ⟨fun hidle hzero => ?_, fun hidle hpick => ?_, fun x hheld => ?_, ?_, ?_, fun x v hheld hv => ?_,
    fun v hidle => ?_⟩
  · refine ⟨_, execClaim_idle hclean hc hidle, ?_⟩
    rw [hzero]
    exact ⟨rfl, hclean, rfl, rfl, rfl⟩
  · have hid := isSource_of_pick hpick
    exact ⟨_, _, rfl, execClaim_idle hclean hc hidle, rfl, by simp [hclean],
      (hsAt_markClaimed_of_shape hs hc hpick c).trans (if_pos rfl),
      (ipAt_markClaimed_of_shape hs hid c _).trans (if_pos rfl),
      (insvcAt_markClaimed_of_shape hs hid c _).trans (if_pos rfl)⟩
  · exact ⟨_, execClaim_nested hclean hc hheld, tookFault_takeFault s _⟩
  · rintro x v hheld rfl h1 hN htaken
    exact ⟨_, execComplete_taken hclean hc hheld htaken, hclean, (hsAt_retire_of_shape hs hc _ c).trans (if_pos rfl),
      (insvcAt_retire_of_shape hs (isSource_of h1 hN) c _).trans (if_pos rfl)⟩
  · rintro x v hheld rfl hrequires hoff
    exact ⟨_, execComplete_ignored hclean hc hheld hrequires hoff, hclean, ⟨rfl, rfl, rfl⟩, ⟨rfl, rfl, rfl⟩⟩
  · have hother : Handshake.inService x ≠ .inService v.toNat := fun h => hv (Handshake.inService.inj h).symm
    exact ⟨_, execComplete_bad_of_hsAt hclean hc hheld hother, tookFault_takeFault s _⟩
  · exact ⟨_, execComplete_bad_of_hsAt hclean hc hidle nofun, tookFault_takeFault s _⟩

end Sys2Proof.Machine
end

section
/-!
PROOFS, family of 60_exceptions.md: taking a fault, the halt that follows it, and its return by a reset (rule R170).
-/

namespace Sys2Proof.Machine

/-- A request on a source line leaves the fault record as it is (rule R130). -/
theorem execRaise_keeps_fault {id : Nat} {s t : State} (h : execRaise id s = .next t) : t.fault = s.fault := by
  obtain ⟨-, ⟨-, -, rfl⟩ | ⟨-, rfl⟩⟩ := execRaise_next h <;> rfl

/-- All that an instruction can do to the fault record: leave it, or take a fault, which is then its whole effect (rule R170). -/
theorem exec_fault_cases {i : Instr} {s t : State} (h : exec i s = .next t) :
    t.fault = s.fault ∨ ∃ r, t = s.takeFault r := by
  cases i with
  | prioRd id => exact (execPrioRd_next h).2.imp (fun ⟨_, ht⟩ => ht ▸ rfl) fun ⟨_, ht⟩ => ⟨_, ht⟩
  | prioWr id p => exact (execPrioWr_next h).2.imp_left fun ⟨_, _, ht⟩ => ht ▸ rfl
  | enRd c w => exact (execEnRd_next h).2.imp_left fun ⟨_, _, ht⟩ => ht ▸ rfl
  | enWr c w data => exact (execEnWr_next h).2.imp_left fun ⟨_, _, ht⟩ => ht ▸ rfl
  | thrRd c => exact (execThrRd_next h).2.imp_left fun ⟨_, ht⟩ => ht ▸ rfl
  | thrWr c v => exact (execThrWr_next h).2.imp_left fun ⟨_, _, ht⟩ => ht ▸ rfl
  | claim c =>
    obtain ⟨-, ⟨-, -, rfl⟩ | ⟨x, -, -, ht⟩ | ⟨-, ht⟩⟩ := execClaim_next h
    · exact Or.inl (by simp)
    · exact Or.inr ⟨_, ht⟩
    · exact Or.inr ⟨_, ht⟩
  | complete c data =>
    obtain ⟨-, ⟨-, -, -, rfl⟩ | ⟨-, -, -, rfl⟩ | hfault⟩ := execComplete_next h
    · exact Or.inl rfl
    · exact Or.inl rfl
    · exact Or.inr hfault
  | raise id => exact Or.inl (execRaise_keeps_fault h)
  | badAccess a => exact Or.inr ⟨_, (execBadAccess_next h).2⟩
  | unmapped a => exact Or.inr ⟨_, (execUnmapped_next h).2⟩

/-- An instruction that records a fault on a clean state does nothing else (rule R170). -/
theorem tookFault_of_exec {i : Instr} {s t : State} {r : FaultRecord} (hclean : s.fault = none)
    (h : exec i s = .next t) (hr : t.fault = some r) : TookFault s t r := by
  rcases exec_fault_cases h with hkept | ⟨r', rfl⟩
  · rw [hkept, hclean] at hr; cases hr
  · cases hr; exact tookFault_takeFault s r

/-- While a fault is recorded every instruction but RAISE, the only one no guard stands before, stops (rule R170). -/
theorem exec_of_faulted {s : State} {r : FaultRecord} (hr : s.fault = some r) {i : Instr} (hi : ∀ id, i ≠ .raise id) :
    exec i s = .fault (.halted r) := by
  cases i with
  | raise id => exact absurd rfl (hi id)
  | prioRd | prioWr | enRd | enWr | thrRd | thrWr | claim | complete | badAccess | unmapped =>
    exact perform_of_faulted _ hr

/-- While a fault is recorded every host transaction stops, since none decodes to RAISE (rule R170). -/
theorem request_host_of_faulted {s : State} {r : FaultRecord} (hr : s.fault = some r) (t : Transaction) :
    request (.host t) s = .fault (.halted r) := exec_of_faulted hr (decodeTransaction_ne_raise s.cfg t)

/-- A step performs the first event of the schedule on the state whose schedule is the rest. -/
theorem step_of_inputs {s : State} {e : Event} {es : List Event} (hwf : s.cfg.wf = true) (he : s.inputs = e :: es) :
    step s = runEvent e (s.withInputs es) := by
  rw [step, if_pos hwf, he]

/-- An access at `BASE` plus an offset is the transaction at that offset (rule R51). -/
theorem runEvent_moveTo (s : State) (t : Transaction) :
    runEvent (.host (t.moveTo (s.cfg.base + t.place.toNat))) s = request (.host t) s := by
  rw [runEvent, present_moveTo]

/-- A step from a state with a fault keeps the record as RAISE does, or is the reset, which clears it (rule R170). -/
theorem step_of_faulted {s t : State} {r : FaultRecord} (hr : s.fault = some r) (h : step s = .next t) :
    (t.fault = some r ∧ ¬ NextIsReset s) ∨ (t.fault = none ∧ NextIsReset s) := by
  obtain ⟨-, e, es, he, hrun⟩ := step_next h
  rcases runEvent_next hrun with ⟨a, tr, rfl, -, hexec⟩ | ⟨id, rfl, hexec⟩ | ⟨rfl, rfl⟩
  · cases hexec.symm.trans (request_host_of_faulted (s := s.withInputs es) hr tr)
  · refine Or.inl ⟨(execRaise_keeps_fault hexec).trans hr, ?_⟩
    rintro ⟨es', he'⟩
    cases he.symm.trans he'
  · exact Or.inr ⟨rfl, es, he⟩

/-- Settles O35: a fault is taken by `takeFault` only, every host transaction passes the guard, and of the two events that
happen on a faulted state RAISE leaves the record and the reset clears it. -/
theorem faultIsRecordedAndEndsTheRun : Obligations.FaultIsRecordedAndEndsTheRun := by
  refine ⟨fun s t i r => tookFault_of_exec, fun s r t hr => request_host_of_faulted hr t,
    fun s r t es hr hwf he => ?_, fun s t r => step_of_faulted⟩
  calc step s = runEvent (.host (t.moveTo (s.cfg.base + t.place.toNat))) (s.withInputs es) := step_of_inputs hwf he
    _ = request (.host t) (s.withInputs es) := runEvent_moveTo (s.withInputs es) t
    _ = .fault (.halted r) := request_host_of_faulted (s := s.withInputs es) hr t

end Sys2Proof.Machine
end

section
/-!
PROOFS, family of 30_encoding.md: decode and encode are inverse to one another on well-formed instructions and on requests
(rule R70, rule R72, rule R73).
-/

namespace Sys2Proof

/-- A well-formed instruction is what the request that stands for it decodes to, row by row. -/
theorem decode_encode {cfg : Config} (hl : cfg.Layout) {i : Instr} (hi : i.wf cfg = true) :
    decode cfg (encode cfg i) = i := by
  cases i with
  | prioRd id => exact decode_r32 hl (g := .prio id) hi
  | prioWr id data => exact decode_w32 hl (g := .prio id) hi data
  | enRd c w => exact decode_r32 hl (g := .enable c w) ((Bool.and_eq_true _ _).mp hi)
  | enWr c w data => exact decode_w32 hl (g := .enable c w) ((Bool.and_eq_true _ _).mp hi) data
  | thrRd c => exact decode_r32 hl (g := .threshold c) hi
  | thrWr c data => exact decode_w32 hl (g := .threshold c) hi data
  | claim c => exact decode_r32 hl (g := .claimComplete c) hi
  | complete c data => exact decode_w32 hl (g := .claimComplete c) hi data
  | raise id => rfl
  | badAccess t => exact decode_bad hi
  | unmapped t =>
    obtain ⟨hok, hm⟩ : t.isBad = false ∧ cfg.mapped t.place.toNat = false := by simpa [Instr.wf] using hi
    exact decode_unmapped hl hok hm

/-- Settles O5: an admitted configuration has a layout, and under one each row decodes to itself. -/
theorem decodeOfEncode : Obligations.DecodeOfEncode := fun _ _ hwf => decode_encode (layout_of_wf hwf)

/-- All that a transaction can be: one that fails the checks of rule R72, an admitted one where no register stands, or a
32-bit read or write of a register of the map. -/
theorem transaction_cases (cfg : Config) (t : Transaction) :
    t.isBad = true ∨ (t.isBad = false ∧ cfg.mapped t.place.toNat = false) ∨
    ∃ g : Target, g.inRange cfg ∧
      (t = Transaction.r32 (g.offset cfg) ∨ ∃ data, t = Transaction.w32 (g.offset cfg) data) := by
  cases hb : t.isBad with
  | true => exact Or.inl rfl
  | false =>
    cases hm : cfg.mapped t.place.toNat with
    | false => exact Or.inr (Or.inl ⟨rfl, rfl⟩)
    | true =>
      obtain ⟨g, hg, hoff⟩ := mapped_iff.mp hm
      obtain ⟨hkind, hsize, -⟩ := isBad_eq_false_iff.mp hb
      have hplace : BitVec.ofNat 32 (g.offset cfg) = t.place := by rw [hoff, BitVec.ofNat_toNat, BitVec.setWidth_eq]
      refine Or.inr (Or.inr ⟨g, hg, ?_⟩)
      cases t with
      | fetch size off => exact absurd rfl hkind
      | read size off => obtain rfl : size = 4 := hsize; exact Or.inl (by rw [Transaction.r32, hplace]; rfl)
      | write size off data =>
        obtain rfl : size = 4 := hsize
        exact Or.inr ⟨data, by rw [Transaction.w32, hplace]; rfl⟩

/-- The read row of a target in range is well formed and stands for the read at its offset. -/
theorem wf_readInstr_and_encode {cfg : Config} {g : Target} (hg : g.inRange cfg) :
    (readInstr g).wf cfg = true ∧ encode cfg (readInstr g) = .host (Transaction.r32 (g.offset cfg)) := by
  cases g with
  | enable c w => exact ⟨(Bool.and_eq_true _ _).mpr hg, rfl⟩
  | prio id => exact ⟨hg, rfl⟩
  | threshold c => exact ⟨hg, rfl⟩
  | claimComplete c => exact ⟨hg, rfl⟩

/-- The write row of a target in range is well formed and stands for the write at its offset. -/
theorem wf_writeInstr_and_encode {cfg : Config} {g : Target} (hg : g.inRange cfg) (data : Word) :
    (writeInstr data g).wf cfg = true ∧ encode cfg (writeInstr data g) = .host (Transaction.w32 (g.offset cfg) data) := by
  cases g with
  | enable c w => exact ⟨(Bool.and_eq_true _ _).mpr hg, rfl⟩
  | prio id => exact ⟨hg, rfl⟩
  | threshold c => exact ⟨hg, rfl⟩
  | claimComplete c => exact ⟨hg, rfl⟩

/-- Settles O6: a source line is its own row, and a transaction is of one of three kinds. -/
theorem everyRequestHasOneMeaning : Obligations.EveryRequestHasOneMeaning := by
  intro cfg r hwf hline
  have hl := layout_of_wf hwf
  cases r with
  | source id =>
    obtain ⟨h1, hN⟩ := hline id rfl
    exact ⟨Machine.isSource_of h1 hN, rfl⟩
  | host t =>
    rcases transaction_cases cfg t with hbad | ⟨hok, hm⟩ | ⟨g, hg, rfl | ⟨data, rfl⟩⟩
    · rw [decode_bad hbad]
      exact ⟨hbad, rfl⟩
    · rw [decode_unmapped hl hok hm]
      exact ⟨by simp [Instr.wf, hok, hm], rfl⟩
    · rw [decode_r32 hl hg]
      exact wf_readInstr_and_encode hg
    · rw [decode_w32 hl hg]
      exact wf_writeInstr_and_encode hg data

end Sys2Proof
end

section
/-!
PROOFS, family of 10_state.md: the reset establishes the invariant of rule R28 and every instruction keeps it.
-/

namespace Sys2Proof.Machine

/-- The reset state meets the invariant: nothing is pending, in service or held, and free priorities are legal (rule R200). -/
theorem inv_resetWith (cfg : Config) (n : Nat) (es : List Event) : (State.resetWith cfg n es).Inv where
  shape := shape_resetWith cfg n es
  pending_not_inService _ _ _ := insvcAt_resetWith cfg n es _
  inService_held id _ h := by simp at h
  held_inService c _ id _ h := by simp at h
  held_once c _ c' _ id _ h := by simp at h
  prio_legal id hN := by
    rcases Nat.eq_zero_or_pos id with rfl | h1
    · exact Nat.zero_le _
    · rw [prioAt_resetWith cfg n es h1 hN]
      exact drawPriority_le cfg _
  thr_legal c hc := by
    rw [thrAt_resetWith cfg n es hc]
    exact drawPriority_le cfg _
  held_source h hh := by
    obtain rfl := List.eq_of_mem_replicate hh
    rfl

/-- Settles O37: the reference configuration is one of all those of `inv_resetWith`. -/
theorem resetMeetsTheInvariant : Obligations.ResetMeetsTheInvariant :=
  ⟨inv_resetWith Config.reference 0 [], inv_resetWith⟩

section
variable {s : State} (h : s.Inv)
include h

/-! Updates that the invariant does not look at. -/

theorem inv_respond (v : Option Word) : (s.respond v).Inv := h.congr ⟨rfl, rfl, rfl, rfl, rfl, rfl, rfl⟩

theorem inv_countDraw : s.countDraw.Inv := h.congr ⟨rfl, rfl, rfl, rfl, rfl, rfl, rfl⟩

theorem inv_takeFault (r : FaultRecord) : (s.takeFault r).Inv := h.congr ⟨rfl, rfl, rfl, rfl, rfl, rfl, rfl⟩

theorem inv_withInputs (es : List Event) : (s.withInputs es).Inv := h.congr ⟨rfl, rfl, rfl, rfl, rfl, rfl, rfl⟩

/-! Configuration writes: the enable bits are under no law, and a legal value keeps rule R28.4. -/

theorem inv_writeEnWord (c w : Nat) (data : Word) : (s.writeEnWord c w data).Inv :=
  { h with shape := shape_writeEnWord h.shape c w data }

theorem inv_setPrio {id : Nat} (hid : s.cfg.isSource id = true) {p : Word} (hp : p.toNat ≤ s.cfg.maxPriority) :
    (s.setPrio id p).Inv :=
  { h with
    shape := shape_setPrio h.shape id p
    prio_legal := fun j hj => by
      rw [prioAt_setPrio_of_shape h.shape hid]
      split
      · exact hp
      · exact h.prio_legal j hj }

theorem inv_setThr {c : Nat} (hc : s.cfg.isContext c = true) {v : Word} (hv : v.toNat ≤ s.cfg.maxPriority) :
    (s.setThr c v).Inv :=
  { h with
    shape := shape_setThr h.shape c v
    thr_legal := fun k hk => by
      rw [thrAt_setThr_of_shape h.shape hc]
      split
      · exact hv
      · exact h.thr_legal k hk }

/-! The interrupt state. -/

/-- A request of a source that is not in service keeps rule R28.1. -/
theorem inv_setIp {id : Nat} (hid : s.cfg.isSource id = true) (hfree : s.insvcAt id = false) :
    (s.setIp id true).Inv :=
  { h with
    shape := shape_setIp h.shape id true
    pending_not_inService := fun j hj hip => by
      rw [ipAt_setIp_of_shape h.shape hid] at hip
      split at hip
      · next heq => exact heq ▸ hfree
      · exact h.pending_not_inService j hj hip }

/-- A source that is not in service is held by no context (rule R28.2). -/
theorem hsAt_ne_of_not_inService {id : Nat} (hfree : s.insvcAt id = false) (c : Nat) : s.hsAt c ≠ .inService id := by
  intro hheld
  obtain ⟨hc, -, hN⟩ := held_in_range h hheld
  exact Bool.false_ne_true (hfree.symm.trans (h.held_inService c hc id hN hheld))

/-- The marking of a source that is not in service by an idle context keeps the invariant: the context is then its one
holder. -/
theorem inv_markClaimed {c id : Nat} (hc : s.cfg.isContext c = true) (hidle : s.hsAt c = .idle)
    (hid : s.cfg.isSource id = true) (hfree : s.insvcAt id = false) : (s.markClaimed c id).Inv := by
  have hs := h.shape
  have hne : id ≠ 0 := Nat.ne_zero_of_lt (isSource_iff.mp hid).1
  have hip := ipAt_markClaimed_of_shape hs hid c
  have hinsvc := insvcAt_markClaimed_of_shape hs hid c
  have hhs := hsAt_markClaimed_of_shape hs hc hne
  -- what a context holds after the marking: the claimer the marked source, every other context another source
  have hholds : ∀ k j, (s.markClaimed c id).hsAt k = .inService j →
      (k = c ∧ j = id) ∨ (k ≠ c ∧ j ≠ id ∧ s.hsAt k = .inService j) := fun k j hk => by
    rw [hhs] at hk
    split at hk
    · next heq => exact Or.inl ⟨heq, (Handshake.inService.inj hk).symm⟩
    · next hkc => exact Or.inr ⟨hkc, fun hj => hsAt_ne_of_not_inService h hfree k (hj ▸ hk), hk⟩
  refine
    { shape := shape_markClaimed hs c id
      pending_not_inService := fun j hj hp => ?_
      inService_held := fun j hj hv => ?_
      held_inService := fun k hk j hj hheld => ?_
      held_once := fun k hk k' hk' j hj hheld hheld' => ?_
      prio_legal := fun j hj => ?_
      thr_legal := fun k hk => ?_
      held_source := fun e he => ?_ }
  all_goals simp only [State.markClaimed_cfg] at *
  · rw [hip] at hp
    rw [hinsvc]
    split at hp
    · cases hp
    · next hji => exact (if_neg hji).trans (h.pending_not_inService j hj hp)
  · rw [hinsvc] at hv
    by_cases hji : j = id
    · exact ⟨c, isContext_iff.mp hc, by rw [hhs, if_pos rfl, hji]⟩
    · rw [if_neg hji] at hv
      obtain ⟨k, hk, hheld⟩ := h.inService_held j hj hv
      have hkc : k ≠ c := fun heq => by rw [heq, hidle] at hheld; cases hheld
      exact ⟨k, hk, by rw [hhs, if_neg hkc, hheld]⟩
  · rw [hinsvc]
    rcases hholds k j hheld with ⟨-, rfl⟩ | ⟨-, hji, hheld⟩
    · exact if_pos rfl
    · exact (if_neg hji).trans (h.held_inService k hk j hj hheld)
  · rcases hholds k j hheld with ⟨rfl, rfl⟩ | ⟨-, hji, hheld⟩
    · rcases hholds k' j hheld' with ⟨rfl, -⟩ | ⟨-, hji, -⟩
      · rfl
      · exact absurd rfl hji
    · rcases hholds k' j hheld' with ⟨-, rfl⟩ | ⟨-, -, hheld'⟩
      · exact absurd rfl hji
      · exact h.held_once k hk k' hk' j hj hheld hheld'
  · rw [State.prioAt_markClaimed]
    exact h.prio_legal j hj
  · rw [State.thrAt_markClaimed]
    exact h.thr_legal k hk
  · rw [State.markClaimed_of_ne s hne] at he
    rcases List.mem_or_eq_of_mem_set he with he | rfl
    · exact h.held_source e he
    · exact hid

/-- The retiring of a held source keeps the invariant: its one holder gives it up (rule R28.3). -/
theorem inv_retire {c id : Nat} (hheldBefore : s.hsAt c = .inService id) : (s.retire c id).Inv := by
  have hs := h.shape
  obtain ⟨hc, h1, hN⟩ := held_in_range h hheldBefore
  have hinsvc := insvcAt_retire_of_shape hs (isSource_of h1 hN) c
  have hhs := hsAt_retire_of_shape hs (isContext_iff.mpr hc) id
  -- what a context holds after the retiring it held before, and it is another context
  have hholds : ∀ k j, (s.retire c id).hsAt k = .inService j → k ≠ c ∧ s.hsAt k = .inService j := fun k j hk => by
    rw [hhs] at hk
    split at hk
    · cases hk
    · next hkc => exact ⟨hkc, hk⟩
  refine { h with
    shape := shape_retire hs c id
    pending_not_inService := fun j hj hp => ?_
    inService_held := fun j hj hv => ?_
    held_inService := fun k hk j hj hheld => ?_
    held_once := fun k hk k' hk' j hj hheld hheld' =>
      h.held_once k hk k' hk' j hj (hholds k j hheld).2 (hholds k' j hheld').2
    held_source := fun e he => ?_ }
  · rw [hinsvc]
    split
    · rfl
    · exact h.pending_not_inService j hj hp
  · rw [hinsvc] at hv
    split at hv
    · cases hv
    · next hji =>
      obtain ⟨k, hk, hheld⟩ := h.inService_held j hj hv
      have hkc : k ≠ c := fun heq => hji (Handshake.inService.inj (hheld.symm.trans (heq ▸ hheldBefore)))
      exact ⟨k, hk, by rw [hhs, if_neg hkc, hheld]⟩
  · obtain ⟨hkc, hheld⟩ := hholds k j hheld
    have hji : j ≠ id := fun heq => hkc (h.held_once k hk c hc id hN (heq ▸ hheld) hheldBefore)
    rw [hinsvc, if_neg hji]
    exact h.held_inService k hk j hj hheld
  · rcases List.mem_or_eq_of_mem_set he with he | rfl
    · exact h.held_source e he
    · rfl

/-- A claim's marking keeps the invariant, since the encoder answers 0 or a pending source (rule R28.1, rule R134). -/
theorem inv_markClaimed_pick {c : Nat} (hc : s.cfg.isContext c = true) (hidle : s.hsAt c = .idle) (k : Word) :
    (s.markClaimed c (pick s c k)).Inv := by
  by_cases hpick : pick s c k = 0
  · rw [hpick]
    exact h
  · obtain ⟨hid, hip, -, -⟩ := (eligible_iff s c _).mp (eligible_of_pick hpick)
    exact inv_markClaimed h hc hidle hid (h.pending_not_inService _ (isSource_iff.mp hid).2 hip)

/-- Every instruction keeps the invariant. -/
theorem inv_of_exec {i : Instr} {t : State} (hstep : exec i s = .next t) : t.Inv := by
  cases i with
  | prioRd id =>
    obtain ⟨-, ⟨-, rfl⟩ | ⟨-, rfl⟩⟩ := execPrioRd_next hstep
    · exact inv_respond h _
    · exact inv_takeFault h _
  | prioWr id p =>
    obtain ⟨-, ⟨hid, hp, rfl⟩ | ⟨r, rfl⟩⟩ := execPrioWr_next hstep
    · exact inv_respond (inv_setPrio h hid hp) none
    · exact inv_takeFault h r
  | enRd c w =>
    obtain ⟨-, ⟨-, -, rfl⟩ | ⟨r, rfl⟩⟩ := execEnRd_next hstep
    · exact inv_respond (inv_countDraw h) _
    · exact inv_takeFault h r
  | enWr c w data =>
    obtain ⟨-, ⟨-, -, rfl⟩ | ⟨r, rfl⟩⟩ := execEnWr_next hstep
    · exact inv_respond (inv_writeEnWord h c w data) none
    · exact inv_takeFault h r
  | thrRd c =>
    obtain ⟨-, ⟨-, rfl⟩ | ⟨r, rfl⟩⟩ := execThrRd_next hstep
    · exact inv_respond h _
    · exact inv_takeFault h r
  | thrWr c v =>
    obtain ⟨-, ⟨hc, hv, rfl⟩ | ⟨r, rfl⟩⟩ := execThrWr_next hstep
    · exact inv_respond (inv_setThr h hc hv) none
    · exact inv_takeFault h r
  | claim c =>
    obtain ⟨-, ⟨hc, hidle, rfl⟩ | ⟨x, -, -, rfl⟩ | ⟨-, rfl⟩⟩ := execClaim_next hstep
    · exact inv_respond (inv_countDraw (inv_markClaimed_pick h hc hidle _)) _
    · exact inv_takeFault h _
    · exact inv_takeFault h _
  | complete c data =>
    obtain ⟨-, ⟨-, hheld, -, rfl⟩ | ⟨-, -, -, rfl⟩ | ⟨r, rfl⟩⟩ := execComplete_next hstep
    · exact inv_respond (inv_retire h hheld) none
    · exact inv_respond h none
    · exact inv_takeFault h r
  | raise id =>
    obtain ⟨hid, ⟨hfree, -, rfl⟩ | ⟨-, rfl⟩⟩ := execRaise_next hstep
    · exact inv_respond (inv_setIp h hid hfree) none
    · exact inv_respond h none
  | badAccess a => exact (execBadAccess_next hstep).2 ▸ inv_takeFault h _
  | unmapped a => exact (execUnmapped_next hstep).2 ▸ inv_takeFault h _

/-- Every step keeps the invariant: it is an instruction on the state with the rest of the schedule, or a reset. -/
theorem inv_of_step {t : State} (hstep : step s = .next t) : t.Inv := by
  obtain ⟨-, e, es, -, hrun⟩ := step_next hstep
  rcases runEvent_next hrun with ⟨a, r, -, -, hexec⟩ | ⟨id, -, hexec⟩ | ⟨-, rfl⟩
  · exact inv_of_exec (inv_withInputs h es) hexec
  · exact inv_of_exec (inv_withInputs h es) hexec
  · exact inv_resetWith _ _ _

end

/-- Settles O38: each instruction's update keeps the invariant, and a reset establishes it anew. -/
theorem everyStepKeepsTheInvariant : Obligations.EveryStepKeepsTheInvariant := fun _ _ hinv => inv_of_step hinv

end Sys2Proof.Machine
end

section
/-!
PROOFS, family of 10_state.md section 2: which instruction can change which register, said once as the relation `Effect`, and
the frame of every step and of every context that follows from it.
-/

namespace Sys2Proof.Machine

/-- The updates an instruction `i` can make on `s`, with the value it returns. The count of free values is left out. -/
inductive Effect (s : State) : Instr → State → Option Word → Prop where
  /-- Reads, a claim that finds nothing, merged requests and ignored completes. -/
  | quiet {i : Instr} (v : Option Word) : Effect s i s v
  | fault {i : Instr} (r : FaultRecord) : Effect s i (s.takeFault r) none
  | prioWr {id : Nat} {p : Word} (hid : s.cfg.isSource id = true) : Effect s (.prioWr id p) (s.setPrio id p) none
  | enWr {c w : Nat} {data : Word} (hc : s.cfg.isContext c = true) :
    Effect s (.enWr c w data) (s.writeEnWord c w data) none
  | thrWr {c : Nat} {v : Word} (hc : s.cfg.isContext c = true) : Effect s (.thrWr c v) (s.setThr c v) none
  | claim {c : Nat} (hc : s.cfg.isContext c = true) (hidle : s.hsAt c = .idle) (hpick : pick s c s.drawn ≠ 0) :
    Effect s (.claim c) (s.markClaimed c (pick s c s.drawn)) (some (BitVec.ofNat 32 (pick s c s.drawn)))
  | complete {c : Nat} {data : Word} (hheld : s.hsAt c = .inService data.toNat) :
    Effect s (.complete c data) (s.retire c data.toNat) none
  | raise {id : Nat} : Effect s (.raise id) (s.setIp id true) none

/-- Every instruction that answers a next state has one of these effects, and never gives a free value back. -/
theorem effect_of_exec {i : Instr} {s t : State} (h : exec i s = .next t) :
    ∃ u v n, Effect s i u v ∧ s.draws ≤ n ∧ t = { u with result := v, draws := n } := by
  cases i with
  | prioRd id =>
    obtain ⟨-, ⟨-, rfl⟩ | ⟨-, rfl⟩⟩ := execPrioRd_next h
    · exact ⟨_, _, _, .quiet _, le_rfl, rfl⟩
    · exact ⟨_, _, _, .fault _, le_rfl, rfl⟩
  | prioWr id p =>
    obtain ⟨-, ⟨hid, -, rfl⟩ | ⟨r, rfl⟩⟩ := execPrioWr_next h
    · exact ⟨_, _, _, .prioWr hid, le_rfl, rfl⟩
    · exact ⟨_, _, _, .fault r, le_rfl, rfl⟩
  | enRd c w =>
    obtain ⟨-, ⟨-, -, rfl⟩ | ⟨r, rfl⟩⟩ := execEnRd_next h
    · exact ⟨_, _, _, .quiet _, Nat.le_succ _, rfl⟩
    · exact ⟨_, _, _, .fault r, le_rfl, rfl⟩
  | enWr c w data =>
    obtain ⟨-, ⟨hc, -, rfl⟩ | ⟨r, rfl⟩⟩ := execEnWr_next h
    · exact ⟨_, _, _, .enWr hc, le_rfl, rfl⟩
    · exact ⟨_, _, _, .fault r, le_rfl, rfl⟩
  | thrRd c =>
    obtain ⟨-, ⟨-, rfl⟩ | ⟨r, rfl⟩⟩ := execThrRd_next h
    · exact ⟨_, _, _, .quiet _, le_rfl, rfl⟩
    · exact ⟨_, _, _, .fault r, le_rfl, rfl⟩
  | thrWr c v =>
    obtain ⟨-, ⟨hc, -, rfl⟩ | ⟨r, rfl⟩⟩ := execThrWr_next h
    · exact ⟨_, _, _, .thrWr hc, le_rfl, rfl⟩
    · exact ⟨_, _, _, .fault r, le_rfl, rfl⟩
  | claim c =>
    obtain ⟨-, ⟨hc, hidle, rfl⟩ | ⟨x, -, -, rfl⟩ | ⟨-, rfl⟩⟩ := execClaim_next h
    · by_cases hpick : pick s c s.drawn = 0
      · exact ⟨s, _, _, .quiet _, Nat.le_succ _, by rw [hpick]; rfl⟩
      · exact ⟨_, _, _, .claim hc hidle hpick, by simp, rfl⟩
    · exact ⟨_, _, _, .fault _, le_rfl, rfl⟩
    · exact ⟨_, _, _, .fault _, le_rfl, rfl⟩
  | complete c data =>
    obtain ⟨-, ⟨-, hheld, -, rfl⟩ | ⟨-, -, -, rfl⟩ | ⟨r, rfl⟩⟩ := execComplete_next h
    · exact ⟨_, _, _, .complete hheld, le_rfl, rfl⟩
    · exact ⟨_, _, _, .quiet none, le_rfl, rfl⟩
    · exact ⟨_, _, _, .fault r, le_rfl, rfl⟩
  | raise id =>
    obtain ⟨-, ⟨-, -, rfl⟩ | ⟨-, rfl⟩⟩ := execRaise_next h
    · exact ⟨_, _, _, .raise, le_rfl, rfl⟩
    · exact ⟨_, _, _, .quiet none, le_rfl, rfl⟩
  | badAccess a => exact ⟨_, _, _, .fault _, le_rfl, (execBadAccess_next h).2⟩
  | unmapped a => exact ⟨_, _, _, .fault _, le_rfl, (execUnmapped_next h).2⟩

namespace Effect
variable {s u : State} {i : Instr} {v : Option Word}

theorem keeps_setting (h : Effect s i u v) : SameSetting s u := by
  cases h with
  | claim => exact ⟨by simp, by simp⟩
  | quiet | fault | prioWr | enWr | thrWr | complete | raise => exact ⟨rfl, rfl⟩

/-! Each register has one instruction that changes it (rule R21 to rule R26). -/

theorem prioWr_of_prioAt_ne (h : Effect s i u v) (hs : s.Shape) {id : Nat} (hne : u.prioAt id ≠ s.prioAt id) :
    i = .prioWr id (u.prioAt id) := by
  cases h with
  | prioWr hid =>
    rw [prioAt_setPrio_of_shape hs hid] at hne ⊢
    split at hne
    · next heq => rw [if_pos heq, heq]
    · exact absurd rfl hne
  | claim => exact absurd (State.prioAt_markClaimed ..) hne
  | quiet | fault | enWr | thrWr | complete | raise => exact absurd rfl hne

theorem enWr_of_enAt_ne (h : Effect s i u v) (hs : s.Shape) {c id : Nat} (hne : u.enAt c id ≠ s.enAt c id) :
    ∃ data : Word, i = .enWr c (id / 32) data ∧ data.getLsbD (id % 32) = u.enAt c id := by
  cases h with
  | @enWr k w data hk =>
    rw [enAt_writeEnWord_of_shape hs data c id hk] at hne ⊢
    split at hne
    · next heq =>
      obtain ⟨rfl, hid, rfl⟩ := heq
      exact ⟨data, rfl, (if_pos ⟨rfl, hid, rfl⟩).symm⟩
    · exact absurd rfl hne
  | claim => exact absurd (State.enAt_markClaimed ..) hne
  | quiet | fault | prioWr | thrWr | complete | raise => exact absurd rfl hne

theorem thrWr_of_thrAt_ne (h : Effect s i u v) (hs : s.Shape) {c : Nat} (hne : u.thrAt c ≠ s.thrAt c) :
    i = .thrWr c (u.thrAt c) := by
  cases h with
  | thrWr hc =>
    rw [thrAt_setThr_of_shape hs hc] at hne ⊢
    split at hne
    · next heq => rw [if_pos heq, heq]
    · exact absurd rfl hne
  | claim => exact absurd (State.thrAt_markClaimed ..) hne
  | quiet | fault | prioWr | enWr | complete | raise => exact absurd rfl hne

theorem raise_of_ipAt_set (h : Effect s i u v) {id : Nat} (hclear : s.ipAt id = false) (hset : u.ipAt id = true) :
    i = .raise id := by
  cases h with
  | raise =>
    rw [ipAt_setIp] at hset
    split at hset
    · next heq => rw [heq.1]
    · cases hclear.symm.trans hset
  | claim _ _ hpick =>
    rw [ipAt_markClaimed _ _ _ _ hpick] at hset
    split at hset
    · cases hset
    · cases hclear.symm.trans hset
  | quiet | fault | prioWr | enWr | thrWr | complete => cases hclear.symm.trans hset

theorem claim_of_ipAt_cleared (h : Effect s i u v) (hs : s.Shape) {id : Nat} (hset : s.ipAt id = true)
    (hclear : u.ipAt id = false) : ∃ c, i = .claim c ∧ v = some (BitVec.ofNat 32 id) ∧ u.hsAt c = .inService id := by
  cases h with
  | raise =>
    rw [ipAt_setIp] at hclear
    split at hclear
    · cases hclear
    · cases hclear.symm.trans hset
  | @claim c hc _ hpick =>
    rw [ipAt_markClaimed_of_shape hs (isSource_of_pick hpick)] at hclear
    split at hclear
    · next heq => exact ⟨c, rfl, by rw [heq], by rw [hsAt_markClaimed_of_shape hs hc hpick, if_pos rfl, heq]⟩
    · cases hclear.symm.trans hset
  | quiet | fault | prioWr | enWr | thrWr | complete => cases hclear.symm.trans hset

theorem claim_of_insvcAt_set (h : Effect s i u v) (hs : s.Shape) {id : Nat} (hclear : s.insvcAt id = false)
    (hset : u.insvcAt id = true) : ∃ c, i = .claim c ∧ v = some (BitVec.ofNat 32 id) ∧ u.hsAt c = .inService id := by
  cases h with
  | complete =>
    rw [insvcAt_retire] at hset
    split at hset
    · cases hset
    · cases hclear.symm.trans hset
  | @claim c hc _ hpick =>
    rw [insvcAt_markClaimed_of_shape hs (isSource_of_pick hpick)] at hset
    split at hset
    · next heq => exact ⟨c, rfl, by rw [heq], by rw [hsAt_markClaimed_of_shape hs hc hpick, if_pos rfl, heq]⟩
    · cases hclear.symm.trans hset
  | quiet | fault | prioWr | enWr | thrWr | raise => cases hclear.symm.trans hset

theorem complete_of_insvcAt_cleared (h : Effect s i u v) {id : Nat} (hset : s.insvcAt id = true)
    (hclear : u.insvcAt id = false) :
    ∃ (c : Nat) (data : Word), i = .complete c data ∧ data.toNat = id ∧ s.hsAt c = .inService id := by
  cases h with
  | @complete c data hheld =>
    rw [insvcAt_retire] at hclear
    split at hclear
    · next heq => exact ⟨c, data, rfl, heq.1.symm, heq.1 ▸ hheld⟩
    · cases hclear.symm.trans hset
  | claim _ _ hpick =>
    rw [insvcAt_markClaimed _ _ _ _ hpick] at hclear
    split at hclear
    · cases hclear
    · cases hclear.symm.trans hset
  | quiet | fault | prioWr | enWr | thrWr | raise => cases hclear.symm.trans hset

/-- The registers of a context that the instruction is not addressed to stay (60_exceptions.md section 3). -/
theorem keeps_other_context (h : Effect s i u v) {c : Nat} (hother : addressedContext i ≠ some c) :
    (∀ id, u.enAt c id = s.enAt c id) ∧ u.thrAt c = s.thrAt c ∧ u.hsAt c = s.hsAt c := by
  have hne : ∀ {k}, some k ≠ some c → c ≠ k := fun hk heq => hk (congrArg some heq.symm)
  cases h with
  | enWr =>
    exact ⟨fun id => by rw [State.enAt, State.writeEnWord_en, getD_set, if_neg (hne hother ·.1), State.enAt], rfl, rfl⟩
  | thrWr => exact ⟨fun _ => rfl, by rw [thrAt_setThr, if_neg (hne hother ·.1)], rfl⟩
  | claim _ _ hpick => exact ⟨by simp, by simp, by rw [hsAt_markClaimed _ _ _ _ hpick, if_neg (hne hother ·.1)]⟩
  | complete => exact ⟨fun _ => rfl, rfl, by rw [hsAt_retire, if_neg (hne hother ·.1)]⟩
  | quiet | fault | prioWr | raise => exact ⟨fun _ => rfl, rfl, rfl⟩

end Effect

/-- A step performs the instruction that the first event of the schedule is, or it is a reset. -/
theorem step_cases {s t : State} (h : step s = .next t) : ∃ e es, s.inputs = e :: es ∧
    ((∃ i, NextIs s i ∧ exec i (s.withInputs es) = .next t) ∨
      (NextIsReset s ∧ t = State.resetWith s.cfg s.draws es)) := by
  obtain ⟨-, e, es, he, hrun⟩ := step_next h
  refine ⟨e, es, he, ?_⟩
  rcases runEvent_next hrun with ⟨a, r, rfl, hpresent, hexec⟩ | ⟨id, rfl, hexec⟩ | ⟨rfl, rfl⟩
  · exact Or.inl ⟨_, Or.inl ⟨a, es, r, he, hpresent, rfl⟩, hexec⟩
  · exact Or.inl ⟨_, Or.inr ⟨id, es, he, rfl⟩, hexec⟩
  · exact Or.inr ⟨⟨es, he⟩, rfl⟩

/-- Settles O39: no effect touches the configuration or the schedule. -/
theorem stepConsumesOneEvent : Obligations.StepConsumesOneEvent := by
  intro s t h
  obtain ⟨e, es, he, ⟨i, -, hexec⟩ | ⟨-, rfl⟩⟩ := step_cases h
  · obtain ⟨u, v, n, heff, hdraws, rfl⟩ := effect_of_exec hexec
    obtain ⟨hcfg, hinputs⟩ := heff.keeps_setting
    exact ⟨hcfg, ⟨e, he.trans (congrArg _ hinputs.symm)⟩, hdraws⟩
  · exact ⟨rfl, ⟨e, he⟩, Nat.le_add_right _ _⟩

/-- Settles O40: the one effect that changes a register names its instruction. -/
theorem registersChangeOnlyByTheirOwnEvents : Obligations.RegistersChangeOnlyByTheirOwnEvents := by
  intro s t hshape h hreset
  obtain ⟨e, es, -, ⟨i, hnext, hexec⟩ | ⟨hnext, -⟩⟩ := step_cases h
  · have hs : (s.withInputs es).Shape := hshape.congr ⟨rfl, rfl, rfl, rfl, rfl, rfl, rfl⟩
    have hhs := fun c => claim_or_complete_of_hsAt_ne (c := c) hexec
    obtain ⟨u, v, n, heff, -, rfl⟩ := effect_of_exec hexec
    refine ⟨fun id hne => ?_, fun c id hne => ?_, fun c hne => ?_, fun id hclear hset => ?_, fun id hset hclear => ?_,
      fun id hclear hset => ?_, fun id hset hclear => ?_, fun c hne => ?_⟩
    · exact heff.prioWr_of_prioAt_ne hs hne ▸ hnext
    · obtain ⟨data, rfl, hbit⟩ := heff.enWr_of_enAt_ne hs hne
      exact ⟨data, hnext, hbit⟩
    · exact heff.thrWr_of_thrAt_ne hs hne ▸ hnext
    · exact heff.raise_of_ipAt_set hclear hset ▸ hnext
    · obtain ⟨c, rfl, hv, hheld⟩ := heff.claim_of_ipAt_cleared hs hset hclear
      exact ⟨c, hnext, hv, hheld⟩
    · obtain ⟨c, rfl, hv, hheld⟩ := heff.claim_of_insvcAt_set hs hclear hset
      exact ⟨c, hnext, hv, hheld⟩
    · obtain ⟨c, data, rfl, hdata, hheld⟩ := heff.complete_of_insvcAt_cleared hset hclear
      exact ⟨c, data, hnext, hdata, hheld⟩
    · rcases hhs c hne with rfl | ⟨data, rfl⟩
      · exact Or.inl hnext
      · exact Or.inr ⟨data, hnext⟩
  · exact absurd hnext hreset

/-- A claim reads and marks nothing of another context: what it returns, the pending and in-service bits and the fault record
after it depend on the claiming context's own registers only (rule R151). -/
theorem claim_congr {s s' t : State} {c : Nat} (hcfg : s'.cfg = s.cfg) (hprio : s'.prio = s.prio) (hip : s'.ip = s.ip)
    (hinsvc : s'.insvc = s.insvc) (hfault : s'.fault = s.fault) (hdraws : s'.draws = s.draws)
    (hen : ∀ id, s'.enAt c id = s.enAt c id) (hthr : s'.thrAt c = s.thrAt c) (hhs : s'.hsAt c = s.hsAt c)
    (hstep : exec (.claim c) s = .next t) :
    ∃ t', exec (.claim c) s' = .next t' ∧ t'.result = t.result ∧ t'.ip = t.ip ∧ t'.insvc = t.insvc ∧
      t'.fault = t.fault := by
  obtain ⟨hclean, ⟨hc, hidle, rfl⟩ | ⟨x, hc, hheld, rfl⟩ | ⟨hc, rfl⟩⟩ := execClaim_next hstep
  all_goals
    rw [← hcfg] at hc
    have hclean' : s'.fault = none := hfault.trans hclean
  · have hpick : pick s' c s'.drawn = pick s c s.drawn := by
      rw [State.drawn, hdraws]
      exact pick_congr hcfg hprio hip hen hthr _
    refine ⟨_, execClaim_idle hclean' hc (hhs.trans hidle), ?_⟩
    rw [hpick]
    by_cases hzero : pick s c s.drawn = 0
    · rw [hzero]
      exact ⟨rfl, hip, hinsvc, hfault⟩
    · simp [State.markClaimed_of_ne _ hzero, hip, hinsvc, hfault]
  · exact ⟨_, execClaim_nested hclean' hc (hhs.trans hheld), rfl, hip, hinsvc, rfl⟩
  · exact ⟨_, execClaim_unmapped hclean' hc, rfl, hip, hinsvc, by rw [hcfg]; rfl⟩

/-- Settles O41: no effect reaches a context it is not addressed to, and a claim reads its own context only. -/
theorem contextsAreIsolated : Obligations.ContextsAreIsolated := by
  refine ⟨fun s t i c hstep hother => ?_, fun s s' t c => claim_congr⟩
  obtain ⟨u, v, n, heff, -, rfl⟩ := effect_of_exec hstep
  exact heff.keeps_other_context hother

end Sys2Proof.Machine
end

section
/-!
PROOFS, family of 42_claim_complete.md section 4: what holds through every run of an outstanding claim and of a taken
occurrence.
-/

namespace Sys2Proof.Machine

/-- What holds at the start and is kept by every step holds through every run. -/
theorem Reaches.keeps {P : State → Prop} (hkeeps : ∀ u v, P u → Machine.step u = .next v → P v) {s t : State}
    (hrun : Reaches s t) (hs : P s) : P t := by
  induction hrun with
  | here => exact hs
  | step _ last ih => exact hkeeps _ _ ih last

theorem cfg_of_step {s t : State} (h : step s = .next t) : t.cfg = s.cfg := (stepConsumesOneEvent s t h).1

/-- The events after a step were events before it. -/
theorem mem_inputs_of_step {s t : State} (h : step s = .next t) {e : Event} (he : e ∈ t.inputs) : e ∈ s.inputs := by
  obtain ⟨-, ⟨first, hinputs⟩, -⟩ := stepConsumesOneEvent s t h
  exact hinputs ▸ List.mem_cons_of_mem first he

/-! ## An outstanding claim (rule R156) -/

/-- Context `c` holds `id`, and the schedule holds neither its complete nor a reset. -/
def HeldForGood (c id : Nat) (s : State) : Prop :=
  s.Inv ∧ s.hsAt c = .inService id ∧ ∀ e ∈ s.inputs, e ≠ .reset ∧ ¬ IsCompleteOf s.cfg c id e

/-- An instruction that is next in such a schedule is not the complete of the held ID. -/
theorem HeldForGood.not_complete {c id : Nat} {s : State} (h : HeldForGood c id s) {data : Word} (hdata : data.toNat = id) :
    ¬ NextIs s (.complete c data) := by
  obtain ⟨-, -, hschedule⟩ := h
  rintro (⟨a, es, r, he, hpresent, hdecode⟩ | ⟨j, es, -, hraise⟩)
  · exact (hschedule _ (he ▸ List.mem_cons_self)).2 ⟨a, r, data, rfl, hpresent, hdecode, hdata⟩
  · cases hraise

theorem heldForGood_of_step {c id : Nat} {s t : State} (h : HeldForGood c id s) (hstep : step s = .next t) :
    HeldForGood c id t := by
  obtain ⟨hinv, hheld, hschedule⟩ := h
  refine ⟨inv_of_step hinv hstep, ?_, fun e he => cfg_of_step hstep ▸ hschedule e (mem_inputs_of_step hstep he)⟩
  obtain ⟨e, es, -, ⟨i, hnext, hexec⟩ | ⟨⟨es', he⟩, -⟩⟩ := step_cases hstep
  · by_contra hreleased
    obtain ⟨data, rfl, hdata⟩ := complete_of_released hexec hheld hreleased
    exact HeldForGood.not_complete ⟨hinv, hheld, hschedule⟩ hdata hnext
  · exact absurd rfl (hschedule .reset (he ▸ List.mem_cons_self)).1

/-- By the invariant a held source is in service and so not pending (rule R28). -/
theorem inService_of_held {s : State} (hinv : s.Inv) {c id : Nat} (hheld : s.hsAt c = .inService id) :
    s.insvcAt id = true ∧ s.ipAt id = false := by
  obtain ⟨hc, -, hN⟩ := held_in_range hinv hheld
  have hinsvc := hinv.held_inService c hc id hN hheld
  refine ⟨hinsvc, ?_⟩
  rw [← Bool.not_eq_true]
  intro hip
  exact Bool.false_ne_true ((hinv.pending_not_inService id hN hip).symm.trans hinsvc)

/-- Settles O30: holding the claim is kept by every step of such a schedule, and the rest is the invariant. -/
theorem uncompletedClaimIsHeldForGood : Obligations.UncompletedClaimIsHeldForGood := by
  intro s t c id hinv hheld hschedule hrun
  obtain ⟨hinv', hheld', -⟩ : HeldForGood c id t :=
    hrun.keeps (fun _ _ => heldForGood_of_step) ⟨hinv, hheld, hschedule⟩
  obtain ⟨hinsvc, hip⟩ := inService_of_held hinv' hheld'
  have hc : t.cfg.isContext c = true := isContext_iff.mpr (held_in_range hinv' hheld').1
  exact ⟨hheld', hinsvc, hip, fun hclean => ⟨_, execClaim_nested hclean hc hheld', tookFault_takeFault t _⟩⟩

/-! ## A taken occurrence (rule R154) -/

/-- A claim returns the ID of no source that is not eligible for its context. -/
theorem claim_result_ne {s t : State} (hwf : s.cfg.wf = true) {c id : Nat} (h1 : 1 ≤ id) (hN : id ≤ s.cfg.numSources)
    (hid : eligible s c id = false) (hstep : exec (.claim c) s = .next t) : t.result ≠ some (BitVec.ofNat 32 id) := by
  obtain ⟨-, ⟨-, -, rfl⟩ | ⟨x, -, -, rfl⟩ | ⟨-, rfl⟩⟩ := execClaim_next hstep
  · exact (Option.some_injective _).ne (ofNat_pick_ne_of_not_eligible hwf h1 hN hid _)
  · nofun
  · nofun

/-- An in-service bit that is set stands at a source. -/
theorem isSource_of_insvcAt {s : State} (hs : s.Shape) {id : Nat} (h : s.insvcAt id = true) : s.cfg.isSource id = true := by
  by_contra hid
  have houtside : s.insvcAt id = false := srcGet_outside false s.insvc (by
    rw [isSource_iff] at hid
    rw [hs.insvc_length]
    omega)
  exact Bool.false_ne_true (houtside.symm.trans h)

/-- Settles O27: by the invariant a source in service is not eligible (rule R132). -/
theorem inServiceSourceIsNotClaimed : Obligations.InServiceSourceIsNotClaimed := by
  intro s t c id hinv hwf hinsvc hstep
  obtain ⟨h1, hN⟩ := isSource_iff.mp (isSource_of_insvcAt hinv.shape hinsvc)
  exact claim_result_ne hwf h1 hN (eligibleMeansPendingEnabledAboveThreshold.2 s c id hinv hinsvc) hstep

/-- The word of an ID up to `N` holds the ID (rule R60). -/
theorem toNat_ofNat_of_le_numSources {cfg : Config} (hwf : cfg.wf = true) {id : Nat} (hN : id ≤ cfg.numSources) :
    (BitVec.ofNat 32 id).toNat = id := by
  rw [BitVec.toNat_ofNat, Nat.mod_eq_of_lt (Nat.lt_of_le_of_lt hN (numSources_lt_of_wf hwf))]

/-- IDs up to `N` have words of their own (rule R60). -/
theorem eq_of_ofNat_eq {cfg : Config} (hwf : cfg.wf = true) {a b : Nat} (ha : a ≤ cfg.numSources)
    (hb : b ≤ cfg.numSources) (h : BitVec.ofNat 32 a = BitVec.ofNat 32 b) : a = b := by
  rwa [← BitVec.toNat_inj, toNat_ofNat_of_le_numSources hwf ha, toNat_ofNat_of_le_numSources hwf hb] at h

/-- A claim that returned the ID of a source picked it, so that the source is not pending any more (rule R151). -/
theorem not_pending_of_claimed {s t : State} (hs : s.Shape) (hwf : s.cfg.wf = true) {c id : Nat} (h1 : 1 ≤ id)
    (hN : id ≤ s.cfg.numSources) (hstep : exec (.claim c) s = .next t) (hresult : t.result = some (BitVec.ofNat 32 id)) :
    t.ipAt id = false := by
  obtain ⟨-, ⟨-, -, rfl⟩ | ⟨x, -, -, rfl⟩ | ⟨-, rfl⟩⟩ := execClaim_next hstep
  · have hpick : pick s c s.drawn = id :=
      eq_of_ofNat_eq hwf (pick_le_numSources s c _) hN (Option.some.inj hresult)
    rw [hpick]
    exact (ipAt_markClaimed_of_shape hs (isSource_of h1 hN) c id).trans (if_pos rfl)
  · cases hresult
  · cases hresult

/-- Source `id` is not pending, and the schedule holds no request of it. -/
def OccurrenceTaken (id : Nat) (s : State) : Prop := s.ipAt id = false ∧ ∀ e ∈ s.inputs, e ≠ .source id

theorem occurrenceTaken_of_step {id : Nat} {s t : State} (h : OccurrenceTaken id s) (hstep : step s = .next t) :
    OccurrenceTaken id t := by
  obtain ⟨hip, hschedule⟩ := h
  refine ⟨?_, fun e he => hschedule e (mem_inputs_of_step hstep he)⟩
  obtain ⟨e, es, -, ⟨i, hnext, hexec⟩ | ⟨-, rfl⟩⟩ := step_cases hstep
  · rw [← Bool.not_eq_true]
    intro hset
    obtain ⟨u, v, n, heff, -, rfl⟩ := effect_of_exec hexec
    obtain rfl := heff.raise_of_ipAt_set hip hset
    rcases hnext with ⟨a, _, r, -, -, hdecode⟩ | ⟨j, _, he, hj⟩
    · exact decodeTransaction_ne_raise s.cfg r id hdecode
    · cases hj
      exact hschedule _ (he ▸ List.mem_cons_self) rfl
  · exact ipAt_resetWith _ _ _ id

/-- Settles O28: after the claim the source is not pending, and only its own request changes that. -/
theorem oneOccurrenceHasOneClaimer : Obligations.OneOccurrenceHasOneClaimer := by
  refine ⟨fun s c k hclean hinv hwf hc hk hne hidle hidle' => ?_,
    fun s t u c id hinv hwf h1 hN hstep hresult hschedule hrun => ?_⟩
  · obtain ⟨-, -, hclaim⟩ := claimReturnsAndMarksThePick s c hclean hinv.shape hwf hc
    obtain ⟨t, id, hpick, hfirst, hresult, hclean', -, ⟨hcfg, -⟩, -⟩ := hclaim hidle
    have hidle'' : t.hsAt k = .idle := by
      by_contra hchanged
      rcases claim_or_complete_of_hsAt_ne hfirst (hidle' ▸ hchanged) with h | ⟨_, h⟩
      · exact hne (Instr.claim.inj h)
      · cases h
    have hwf' : t.cfg.wf = true := hcfg ▸ hwf
    obtain ⟨-, -, hclaim'⟩ :=
      claimReturnsAndMarksThePick t k hclean' (inv_of_exec hinv hfirst).shape hwf' (hcfg ▸ hk)
    obtain ⟨u, j, -, hsecond, hresult', hclean'', -⟩ := hclaim' hidle''
    refine ⟨t, u, _, _, hfirst, hresult, hsecond, hresult', hclean'', fun hv hsame => ?_⟩
    obtain ⟨h1, hN⟩ : 1 ≤ id ∧ id ≤ s.cfg.numSources := by
      subst hpick
      exact isSource_iff.mp (isSource_of_pick fun h => hv (by rw [h]))
    have hip := not_pending_of_claimed hinv.shape hwf h1 hN hfirst hresult
    exact claim_result_ne hwf' h1 (hcfg ▸ hN) (not_eligible_of_not_pending hip k) hsecond (hsame ▸ hresult')
  · have hip := not_pending_of_claimed hinv.shape hwf h1 hN hstep hresult
    obtain ⟨hip', -⟩ : OccurrenceTaken id u := hrun.keeps (fun _ _ => occurrenceTaken_of_step) ⟨hip, hschedule⟩
    have hcfg : u.cfg = s.cfg := by
      obtain ⟨_, _, _, heff, -, rfl⟩ := effect_of_exec hstep
      exact hrun.keeps (P := fun u => u.cfg = s.cfg) (fun _ _ hu h => (cfg_of_step h).trans hu) heff.keeps_setting.1
    exact ⟨hip', fun k v => claim_result_ne (hcfg ▸ hwf) h1 (hcfg ▸ hN) (not_eligible_of_not_pending hip' k)⟩

/-- Settles O29: the claim marks the pick, which is enabled for the context, so the complete retires it, and the next request
finds it neither pending nor in service. -/
theorem completedSourceIsClaimableAgain : Obligations.CompletedSourceIsClaimableAgain := by
  intro s c id hclean hinv hwf hcontext hidle hpick hne
  subst hpick
  have hc : s.cfg.isContext c = true := isContext_iff.mpr hcontext
  obtain ⟨hid, -, hen, -⟩ := (eligible_iff s c _).mp (eligible_of_pick hne)
  obtain ⟨h1, hN⟩ := isSource_iff.mp hid
  obtain ⟨-, -, hclaim⟩ := claimReturnsAndMarksThePick s c hclean hinv.shape hwf hcontext
  obtain ⟨t, id, rfl, hfirst, -, hclean', ⟨-, hen', -⟩, ⟨hcfg, -⟩, -, -, -, -, hmarked⟩ := hclaim hidle
  obtain ⟨hip, -, hheld, -⟩ := hmarked hne
  generalize pick s c s.drawn = id at *
  have hinv' : t.Inv := inv_of_exec hinv hfirst
  have hword : (BitVec.ofNat 32 id).toNat = id := toNat_ofNat_of_le_numSources hwf hN
  have henabled : t.enAt c id = true := by rwa [State.enAt, hen']
  obtain ⟨-, -, -, hcomplete, -⟩ := completeRetiresTheHeldId t c (BitVec.ofNat 32 id) hclean' hinv' (hcfg ▸ hcontext)
  rw [hword] at hcomplete
  obtain ⟨u, -, hsecond, hfree, hidle', -, -, hip', -, hclean'', -, ⟨hcfg', -⟩, -⟩ := hcomplete hheld (Or.inr henabled)
  have hip'' : u.ipAt id = false := by rwa [State.ipAt, hip']
  have hid' : u.cfg.isSource id = true := by rwa [hcfg', hcfg]
  have hpending := (ipAt_setIp_of_shape (inv_of_exec hinv' hsecond).shape hid' true id).trans (if_pos rfl)
  refine ⟨t, u, _, hfirst, hsecond, hfree, hidle', execRaise_new hid' hfree hip'', hclean'', hpending,
    fun k hk habove => ?_⟩
  have helig := (eligible_iff ((u.setIp id true).respond none) k id).mpr ⟨hid', hpending, hk, habove⟩
  exact ⟨helig, (irqOut_iff _ k).mpr ⟨id, helig⟩⟩

end Sys2Proof.Machine
end

section
/-!
PROOFS, family of 20_memory.md: the words of the regions of an admitted configuration are apart (rule R60).
-/

namespace Sys2Proof

/-- Two runs of aligned words share no word exactly when one ends before the other begins: else the later start is a word of
both. -/
theorem words_apart_iff {a b m n : Nat} (ha : a % 4 = 0) (hb : b % 4 = 0) (hm : 1 ≤ m) (hn : 1 ≤ n) :
    (a + 4 * m ≤ b ∨ b + 4 * n ≤ a) ↔ ∀ i < m, ∀ j < n, a + 4 * i ≠ b + 4 * j := by
  refine ⟨fun h i hi j hj => by omega, fun h => ?_⟩
  by_contra hoverlap
  rcases Nat.le_total a b with hab | hba
  · exact h ((b - a) / 4) (by omega) 0 (by omega) (by omega)
  · exact h 0 (by omega) ((a - b) / 4) (by omega) (by omega)

/-- The four sets of register offsets of rule R60. -/
def Config.IsWord (cfg : Config) (off : Nat) : Bank → Prop
  | .priority => ∃ id ≤ cfg.numSources, off = cfg.prioOff id
  | .enable => ∃ c < cfg.numHarts, ∃ w < cfg.numEnableWords, off = cfg.enwOff c w
  | .threshold => ∃ c < cfg.numHarts, off = cfg.thrOff c
  | .claim => ∃ c < cfg.numHarts, off = cfg.clmOff c

/-- The words of a region are offsets of its set. -/
theorem isWord_of_region {cfg : Config} {r : Region} (hr : r ∈ cfg.regions) {i : Nat} (hi : i < r.words) :
    cfg.IsWord (r.start + 4 * i) r.bank := by
  rcases mem_regions.mp hr with rfl | ⟨c, hc, rfl | rfl | rfl⟩
  · exact ⟨i, Nat.le_of_lt_succ hi, rfl⟩
  · exact ⟨c, hc, i, hi, rfl⟩
  · exact ⟨c, hc, by obtain rfl := Nat.lt_one_iff.mp hi; rfl⟩
  · exact ⟨c, hc, by obtain rfl := Nat.lt_one_iff.mp hi; rfl⟩

/-- The four sets of register offsets are pairwise disjoint, as rule R60 lists them. -/
def Config.WordsDisjoint (cfg : Config) : Prop :=
  (∀ id ≤ cfg.numSources, ∀ c < cfg.numHarts, ∀ w < cfg.numEnableWords, cfg.prioOff id ≠ cfg.enwOff c w) ∧
  (∀ id ≤ cfg.numSources, ∀ c < cfg.numHarts, cfg.prioOff id ≠ cfg.thrOff c ∧ cfg.prioOff id ≠ cfg.clmOff c) ∧
  (∀ c < cfg.numHarts, ∀ w < cfg.numEnableWords, ∀ k < cfg.numHarts,
    cfg.enwOff c w ≠ cfg.thrOff k ∧ cfg.enwOff c w ≠ cfg.clmOff k) ∧
  (∀ c < cfg.numHarts, ∀ k < cfg.numHarts, cfg.thrOff c ≠ cfg.clmOff k)

/-- Every register's offset lies in `0..2^32-4`, word by word (rule R60). -/
def Config.WordsInWindow (cfg : Config) : Prop :=
  (∀ id ≤ cfg.numSources, cfg.prioOff id ≤ 2 ^ 32 - 4) ∧
  (∀ c < cfg.numHarts, (∀ w < cfg.numEnableWords, cfg.enwOff c w ≤ 2 ^ 32 - 4) ∧
    cfg.thrOff c ≤ 2 ^ 32 - 4 ∧ cfg.clmOff c ≤ 2 ^ 32 - 4)

theorem wordsDisjoint_of_layout {cfg : Config} (hl : cfg.Layout) : cfg.WordsDisjoint := by
  refine ⟨fun id hid c hc w hw => ?_, fun id hid c hc => ⟨?_, ?_⟩, fun c hc w hw k hk => ⟨?_, ?_⟩, fun c hc k hk => ?_⟩
  · have := hl.prio_enable c hc
    simp only [Config.prioOff, Config.enwOff]; omega
  · have := hl.prio_thr c hc
    simp only [Config.prioOff]; omega
  · have := hl.prio_clm c hc
    simp only [Config.prioOff]; omega
  · have := hl.enable_thr c hc k hk
    simp only [Config.enwOff]; omega
  · have := hl.enable_clm c hc k hk
    simp only [Config.enwOff]; omega
  · have := hl.thr_clm c hc k hk
    omega

theorem wordsInWindow_of_layout {cfg : Config} (hl : cfg.Layout) : cfg.WordsInWindow := by
  refine ⟨fun id hid => ?_, fun c hc => ⟨fun w hw => ?_, ?_, ?_⟩⟩
  · have := hl.window_prio
    simp only [Config.prioOff]; omega
  · have := hl.window_enable c hc
    simp only [Config.enwOff]; omega
  · have := hl.window_thr c hc
    omega
  · have := hl.window_clm c hc
    omega

/-- Every region begins at a multiple of 4, by the layout parameters, and has a word. -/
theorem region_aligned {cfg : Config}
    (h : cfg.priorityOffset % 4 = 0 ∧ cfg.enableOffset % 4 = 0 ∧ cfg.enableStride % 4 = 0 ∧
      cfg.thresholdOffset % 4 = 0 ∧ cfg.thresholdStride % 4 = 0 ∧ cfg.claimOffset % 4 = 0 ∧ cfg.claimStride % 4 = 0)
    {r : Region} (hr : r ∈ cfg.regions) : r.start % 4 = 0 ∧ 1 ≤ r.words := by
  obtain ⟨hprio, hen, hens, hthr, hthrs, hclm, hclms⟩ := h
  rcases mem_regions.mp hr with rfl | ⟨c, hc, rfl | rfl | rfl⟩
  · exact ⟨hprio, Nat.le_add_left 1 _⟩
  · have := mul_mod_four (c := c) hens
    exact ⟨by simp only [Config.enableBase]; omega, Nat.le_add_left 1 _⟩
  · have := mul_mod_four (c := c) hthrs
    exact ⟨by simp only [Config.thrOff]; omega, le_rfl⟩
  · have := mul_mod_four (c := c) hclms
    exact ⟨by simp only [Config.clmOff]; omega, le_rfl⟩

/-- Offsets of two of the sets differ. -/
theorem isWord_ne {cfg : Config} (h : cfg.WordsDisjoint) {x y : Nat} {b b' : Bank} (hb : b ≠ b') (hx : cfg.IsWord x b)
    (hy : cfg.IsWord y b') : x ≠ y := by
  obtain ⟨hpe, hptc, hetc, htc⟩ := h
  cases b with
  | priority =>
    obtain ⟨id, hid, rfl⟩ := hx
    cases b' with
    | priority => exact absurd rfl hb
    | enable => obtain ⟨k, hk, w, hw, rfl⟩ := hy; exact hpe id hid k hk w hw
    | threshold => obtain ⟨k, hk, rfl⟩ := hy; exact (hptc id hid k hk).1
    | claim => obtain ⟨k, hk, rfl⟩ := hy; exact (hptc id hid k hk).2
  | enable =>
    obtain ⟨c, hc, w, hw, rfl⟩ := hx
    cases b' with
    | priority => obtain ⟨id, hid, rfl⟩ := hy; exact (hpe id hid c hc w hw).symm
    | enable => exact absurd rfl hb
    | threshold => obtain ⟨k, hk, rfl⟩ := hy; exact (hetc c hc w hw k hk).1
    | claim => obtain ⟨k, hk, rfl⟩ := hy; exact (hetc c hc w hw k hk).2
  | threshold =>
    obtain ⟨c, hc, rfl⟩ := hx
    cases b' with
    | priority => obtain ⟨id, hid, rfl⟩ := hy; exact (hptc id hid c hc).1.symm
    | enable => obtain ⟨k, hk, w, hw, rfl⟩ := hy; exact (hetc k hk w hw c hc).1.symm
    | threshold => exact absurd rfl hb
    | claim => obtain ⟨k, hk, rfl⟩ := hy; exact htc c hc k hk
  | claim =>
    obtain ⟨c, hc, rfl⟩ := hx
    cases b' with
    | priority => obtain ⟨id, hid, rfl⟩ := hy; exact (hptc id hid c hc).2.symm
    | enable => obtain ⟨k, hk, w, hw, rfl⟩ := hy; exact (hetc k hk w hw c hc).2.symm
    | threshold => obtain ⟨k, hk, rfl⟩ := hy; exact (htc k hk c hc).symm
    | claim => exact absurd rfl hb

/-- Regions of two of the sets share no word, so they are apart. -/
theorem regions_apart {cfg : Config} (haligned : ∀ r ∈ cfg.regions, r.start % 4 = 0 ∧ 1 ≤ r.words)
    (h : cfg.WordsDisjoint) {r q : Region} (hr : r ∈ cfg.regions) (hq : q ∈ cfg.regions) (hb : r.bank ≠ q.bank) :
    r.stop ≤ q.start ∨ q.stop ≤ r.start := by
  obtain ⟨har, hwr⟩ := haligned r hr
  obtain ⟨haq, hwq⟩ := haligned q hq
  exact (words_apart_iff har haq hwr hwq).mpr fun i hi j hj =>
    isWord_ne h hb (isWord_of_region hr hi) (isWord_of_region hq hj)

/-- Regions whose last words lie in the window end in it. -/
theorem regions_inWindow {cfg : Config} (h : cfg.WordsInWindow) : ∀ r ∈ cfg.regions, r.stop ≤ 2 ^ 32 := by
  obtain ⟨hprio, hcontext⟩ := h
  intro r hr
  rcases mem_regions.mp hr with rfl | ⟨c, hc, rfl | rfl | rfl⟩
  · have := hprio cfg.numSources le_rfl
    simp only [Config.prioOff, Region.stop] at this ⊢; omega
  · obtain ⟨hen, -, -⟩ := hcontext c hc
    have := hen (cfg.numSources / 32) (Nat.lt_succ_self _)
    simp only [Config.enwOff, Region.stop, Config.numEnableWords] at this ⊢; omega
  · obtain ⟨-, hthr, -⟩ := hcontext c hc
    simp only [Region.stop]; omega
  · obtain ⟨-, -, hclm⟩ := hcontext c hc
    simp only [Region.stop]; omega

end Sys2Proof

namespace Sys2Proof.Machine

/-- The one reason for which an instruction is refused (log entry 7). -/
theorem exec_refused {i : Instr} {s : State} {r : Refusal} (h : exec i s = .refused r) : r = .noSourceLine := by
  cases i with
  | raise id =>
    cases hid : s.cfg.isSource id with
    | true => simp [exec, execRaise, hid] at h
    | false => cases h.symm.trans (execRaise_noLine hid); rfl
  | prioRd | prioWr | enRd | enWr | thrRd | thrWr | claim | complete | badAccess | unmapped =>
    exact absurd h perform_ne_refused

/-- The reasons for which an event is refused (log entries 7 and 10). -/
theorem runEvent_refused {e : Event} {s : State} {r : Refusal} (h : runEvent e s = .refused r) :
    r = .notRouted ∨ r = .noSourceLine := by
  cases e with
  | host a =>
    cases hp : present s.cfg a with
    | none => simp only [runEvent, hp] at h; cases h; exact Or.inl rfl
    | some t => simp only [runEvent, hp] at h; exact Or.inr (exec_refused h)
  | source id => exact Or.inr (exec_refused (i := .raise id) h)
  | reset => cases h

/-- A step is refused as malformed exactly under a configuration that is not admitted (rule R60). -/
theorem step_malformed_iff (s : State) : s.cfg.wf = false ↔ step s = .refused .malformedConfiguration := by
  refine ⟨fun hwf => by simp [step, hwf], fun h => ?_⟩
  rw [← Bool.not_eq_true]
  intro hwf
  cases he : s.inputs with
  | nil => simp [step, hwf, he] at h
  | cons e es =>
    rw [step_of_inputs hwf he] at h
    rcases runEvent_refused h with hr | hr
    · cases hr
    · cases hr

/-- Settles O3: the check on regions says word by word what the rule says. -/
theorem malformedConfigurationIsRefused : Obligations.MalformedConfigurationIsRefused := by
  refine ⟨fun cfg => ⟨fun hwf => ?_, ?_⟩, step_malformed_iff⟩
  · obtain ⟨hranges, haligned, hstrides, -⟩ := wf_iff.mp hwf
    have hl := layout_of_wf hwf
    obtain ⟨hpe, hptc, hetc, htc⟩ := wordsDisjoint_of_layout hl
    exact ⟨by omega, by omega, hstrides, hpe, hptc, hetc, htc, wordsInWindow_of_layout hl⟩
  · rintro ⟨hranges, haligned, hstrides, hpe, hptc, hetc, htc, hwindow⟩
    have haligned' : ∀ r ∈ cfg.regions, r.start % 4 = 0 ∧ 1 ≤ r.words := fun _ => region_aligned (by omega)
    exact wf_iff.mpr ⟨by omega, by omega, hstrides, regions_inWindow hwindow,
      fun r hr q hq => or_iff_not_imp_left.mpr (regions_apart haligned' ⟨hpe, hptc, hetc, htc⟩ hr hq)⟩

end Sys2Proof.Machine
end

section
/-!
PROOFS, family of 30_encoding.md section 4: the numeric decode table under the reference layout.
-/

namespace Sys2Proof

/-- A mask that is 0 on the bits `lo..hi-1` and 1 elsewhere: the masked word is `value` exactly when the parts above and below
the field are those of `value`. -/
theorem and_mask_eq_iff {lo hi : Nat} {mask value : Word}
    (hmask : ∀ i < 32, mask.getLsbD i = (decide (i < lo) || decide (hi ≤ i)))
    (hvalue : ∀ i < 32, lo ≤ i → i < hi → value.getLsbD i = false) (x : Word) :
    x &&& mask = value ↔ x.toNat / 2 ^ hi = value.toNat / 2 ^ hi ∧ x.toNat % 2 ^ lo = value.toNat % 2 ^ lo := by
  constructor
  · rintro rfl
    refine ⟨Nat.eq_of_testBit_eq fun i => ?_, Nat.eq_of_testBit_eq fun i => ?_⟩
    · rw [Nat.testBit_div_two_pow, Nat.testBit_div_two_pow, BitVec.testBit_toNat, BitVec.testBit_toNat, BitVec.getLsbD_and]
      by_cases hi32 : i + hi < 32
      · simp [hmask _ hi32]
      · simp [BitVec.getLsbD_of_ge x _ (Nat.not_lt.mp hi32)]
    · rw [Nat.testBit_mod_two_pow, Nat.testBit_mod_two_pow, BitVec.testBit_toNat, BitVec.testBit_toNat, BitVec.getLsbD_and]
      by_cases hlo : i < lo
      · by_cases hi32 : i < 32
        · simp [hmask i hi32, hlo]
        · simp [BitVec.getLsbD_of_ge x i (Nat.not_lt.mp hi32)]
      · simp [hlo]
  · rintro ⟨hhigh, hlow⟩
    refine BitVec.eq_of_getLsbD_eq fun i hi32 => ?_
    rw [BitVec.getLsbD_and, hmask i hi32]
    by_cases hlo : i < lo
    · have hbit := congrArg (Nat.testBit · i) hlow
      simp only [Nat.testBit_mod_two_pow, BitVec.testBit_toNat, hlo, decide_true, Bool.true_and] at hbit
      simp [hlo, hbit]
    · by_cases hhi : hi ≤ i
      · have hbit := congrArg (Nat.testBit · (i - hi)) hhigh
        simp only [Nat.testBit_div_two_pow, BitVec.testBit_toNat, Nat.sub_add_cancel hhi] at hbit
        simp [hhi, hbit]
      · simp [hlo, hhi, hvalue i hi32 (Nat.not_lt.mp hlo) (Nat.not_le.mp hhi)]

/-- The numeric table in arithmetic, on an aligned offset. -/
theorem numericTarget_eq (n h : Nat) {off : Word} (ha : off.toNat % 4 = 0) :
    numericTarget n h off =
      if off.toNat / 4096 = 0 ∧ 1 ≤ off.toNat / 4 % 1024 ∧ off.toNat / 4 % 1024 ≤ n then
        some (.prio (off.toNat / 4 % 1024))
      else if off.toNat / 8192 = 1 ∧ off.toNat / 128 % 64 < h ∧ off.toNat / 4 % 32 < n / 32 + 1 then
        some (.enable (off.toNat / 128 % 64) (off.toNat / 4 % 32))
      else if off.toNat / 262144 = 8 ∧ off.toNat % 4096 = 0 ∧ off.toNat / 4096 % 64 < h then
        some (.threshold (off.toNat / 4096 % 64))
      else if off.toNat / 262144 = 8 ∧ off.toNat % 4096 = 4 ∧ off.toNat / 4096 % 64 < h then
        some (.claimComplete (off.toNat / 4096 % 64))
      else none := by
  have hprio := and_mask_eq_iff (lo := 2) (hi := 12)
    (mask := 0xFFFFF003#32) (value := 0x00000000#32) (by decide) (by decide) off
  have hen := and_mask_eq_iff (lo := 2) (hi := 13)
    (mask := 0xFFFFE003#32) (value := 0x00002000#32) (by decide) (by decide) off
  have hthr := and_mask_eq_iff (lo := 12) (hi := 18)
    (mask := 0xFFFC0FFF#32) (value := 0x00200000#32) (by decide) (by decide) off
  have hclm := and_mask_eq_iff (lo := 12) (hi := 18)
    (mask := 0xFFFC0FFF#32) (value := 0x00200004#32) (by decide) (by decide) off
  simp [numericTarget, hprio, hen, hthr, hclm, ha, Nat.shiftRight_eq_div_pow, and_assoc]

/-- The reference layout of rule R10 is a layout, up to 1023 sources and 64 harts. -/
theorem layout_referenceLayout {n h : Nat} (hn : n ≤ 1023) (hh : h ≤ 64) : (Config.referenceLayout n h).Layout := by
  constructor <;>
    simp only [Config.referenceLayout, Config.enableBase, Config.thrOff, Config.clmOff, Config.numEnableWords] <;>
    omega

/-- The map decode answers exactly the register standing at an aligned offset (rule R72, rule R73). -/
theorem decodeTarget_eq_some_iff {cfg : Config} (hl : cfg.Layout) {off : Nat} (ha : off % 4 = 0) {g : Target} :
    decodeTarget cfg off = some g ↔ g.offset cfg = off ∧ g.inRange cfg :=
  ⟨decodeTarget_spec hl ha, fun ⟨hoff, hg⟩ => hoff ▸ decodeTarget_offset hl hg⟩

/-- A register of the reference layout, by numbers (rule R10, rule R73). -/
def StandsAt (n h off : Nat) : Target → Prop
  | .prio id => 4 * id = off ∧ 1 ≤ id ∧ id ≤ n
  | .enable c w => 8192 + 128 * c + 4 * w = off ∧ c < h ∧ w < n / 32 + 1
  | .threshold c => 2097152 + 4096 * c = off ∧ c < h
  | .claimComplete c => 2097156 + 4096 * c = off ∧ c < h

theorem standsAt_iff (n h off : Nat) (g : Target) : StandsAt n h off g ↔
    g.offset (Config.referenceLayout n h) = off ∧ g.inRange (Config.referenceLayout n h) := by
  cases g with
  | prio id =>
    rw [Target.inRange, Machine.isSource_iff]
    simp [StandsAt, Target.offset, Config.prioOff, Config.referenceLayout]
  | enable c w =>
    rw [Target.inRange, Machine.isContext_iff, Machine.isEnableWord_iff]
    simp [StandsAt, Target.offset, Config.enwOff, Config.enableBase, Config.numEnableWords, Config.referenceLayout,
      Nat.mul_comm c]
  | threshold c =>
    rw [Target.inRange, Machine.isContext_iff]
    simp [StandsAt, Target.offset, Config.thrOff, Config.referenceLayout, Nat.mul_comm c]
  | claimComplete c =>
    rw [Target.inRange, Machine.isContext_iff]
    simp [StandsAt, Target.offset, Config.clmOff, Config.referenceLayout, Nat.mul_comm c]

/-- What the numeric table answers stands at the offset. -/
theorem standsAt_of_numericTarget {n h : Nat} {off : Word} (ha : off.toNat % 4 = 0) {g : Target}
    (hg : numericTarget n h off = some g) : StandsAt n h off.toNat g := by
  rw [numericTarget_eq n h ha] at hg
  split at hg
  · cases hg; simp only [StandsAt]; omega
  · split at hg
    · cases hg; simp only [StandsAt]; omega
    · split at hg
      · cases hg; simp only [StandsAt]; omega
      · split at hg
        · cases hg; simp only [StandsAt]; omega
        · cases hg

/-- The numeric table finds what stands at an offset, since the fields are wide enough for 1023 sources and 64 harts. -/
theorem numericTarget_of_standsAt {n h : Nat} (hn : n ≤ 1023) (hh : h ≤ 64) {off : Word} (ha : off.toNat % 4 = 0)
    {g : Target} (hg : StandsAt n h off.toNat g) : numericTarget n h off = some g := by
  rw [numericTarget_eq n h ha]
  cases g with
  | prio id =>
    obtain ⟨hoff, hid⟩ := hg
    have hfield : off.toNat / 4 % 1024 = id := by omega
    rw [if_pos (by omega), hfield]
  | enable c w =>
    obtain ⟨hoff, hcw⟩ := hg
    have hcontext : off.toNat / 128 % 64 = c := by omega
    have hword : off.toNat / 4 % 32 = w := by omega
    rw [if_neg (by omega), if_pos (by omega), hcontext, hword]
  | threshold c =>
    obtain ⟨hoff, hc⟩ := hg
    have hcontext : off.toNat / 4096 % 64 = c := by omega
    rw [if_neg (by omega), if_neg (by omega), if_pos (by omega), hcontext]
  | claimComplete c =>
    obtain ⟨hoff, hc⟩ := hg
    have hcontext : off.toNat / 4096 % 64 = c := by omega
    rw [if_neg (by omega), if_neg (by omega), if_neg (by omega), if_pos (by omega), hcontext]

/-- Settles O7: both decoders answer the register standing at the offset. -/
theorem numericDecodeAgrees : Obligations.NumericDecodeAgrees := by
  intro n h off _ hn _ hh ha
  refine Option.ext fun g => ?_
  calc decodeTarget (Config.referenceLayout n h) off.toNat = some g
    _ ↔ StandsAt n h off.toNat g :=
      (decodeTarget_eq_some_iff (layout_referenceLayout hn hh) ha).trans (standsAt_iff n h off.toNat g).symm
    _ ↔ numericTarget n h off = some g := ⟨numericTarget_of_standsAt hn hh ha, standsAt_of_numericTarget ha⟩

end Sys2Proof
end

section
/-!
PROOFS, family of 30_encoding.md and 60_exceptions.md: unmapped accesses, indices out of range, and the fault a transaction
takes in the order of rule R172.
-/

namespace Sys2Proof.Machine

/-- Settles O32: an offset of no row of the map is unmapped, and UNMAPPED does no more than take its fault. -/
theorem unmappedAccessTakesTheFault : Obligations.UnmappedAccessTakesTheFault := by
  refine ⟨fun s t hclean => ⟨_, execUnmapped_clean hclean t, tookFault_takeFault s _, rfl⟩,
    fun cfg t hwf hkind hsize ha hprio hcontext => ?_⟩
  refine decode_unmapped (layout_of_wf hwf) (isBad_eq_false_iff.mpr ⟨hkind, hsize, ha⟩) ?_
  rw [← Bool.not_eq_true, mapped_iff]
  rintro ⟨g, hg, hoff⟩
  cases g with
  | prio id =>
    obtain ⟨h1, hN⟩ := isSource_iff.mp hg
    exact hprio id h1 hN hoff.symm
  | enable c w =>
    obtain ⟨hen, -, -⟩ := hcontext c (isContext_iff.mp hg.1)
    exact hen w (isEnableWord_iff.mp hg.2) hoff.symm
  | threshold c =>
    obtain ⟨-, hthr, -⟩ := hcontext c (isContext_iff.mp hg)
    exact hthr hoff.symm
  | claimComplete c =>
    obtain ⟨-, -, hclm⟩ := hcontext c (isContext_iff.mp hg)
    exact hclm hoff.symm

/-- Settles O33: each meaning tests its indices first. -/
theorem indexOutOfRangeTakesUnmapped : Obligations.IndexOutOfRangeTakesUnmapped := by
  refine ⟨fun s id p hclean hid => ?_, fun s c w data hclean hcw => ?_, fun s c v hclean hc => ?_⟩
  · have hno := not_isSource_of hid
    exact ⟨⟨_, execPrioRd_unmapped hclean hno, tookFault_takeFault s _⟩,
      ⟨_, execPrioWr_unmapped hclean hno, tookFault_takeFault s _⟩⟩
  · have hno : (s.cfg.isContext c && s.cfg.isEnableWord w) = false := by
      rw [← Bool.not_eq_true, Bool.and_eq_true, isContext_iff, isEnableWord_iff]
      omega
    exact ⟨⟨_, execEnRd_unmapped hclean hno, tookFault_takeFault s _⟩,
      ⟨_, execEnWr_unmapped hclean hno, tookFault_takeFault s _⟩⟩
  · have hno := not_isContext_of hc
    exact ⟨⟨_, execThrRd_unmapped hclean hno, tookFault_takeFault s _⟩,
      ⟨_, execThrWr_unmapped hclean hno, tookFault_takeFault s _⟩,
      ⟨_, execClaim_unmapped hclean hno, tookFault_takeFault s _⟩,
      ⟨_, execComplete_unmapped hclean hno, tookFault_takeFault s _⟩⟩

/-! The code a clean read and a clean write of a register leave, by the register (rule R172). -/

/-- The code of a read: a claim of a context that holds an ID faults. -/
def readCode (s : State) : Target → Nat
  | .claimComplete c => if s.hsAt c = .idle then 0 else 4
  | .prio _ => 0
  | .enable _ _ => 0
  | .threshold _ => 0

/-- The code of a write: a value above `MAX_PRIORITY` and a complete of an ID that is not held fault. -/
def writeCode (s : State) (data : Word) : Target → Nat
  | .claimComplete c => if s.hsAt c = .inService data.toNat then 0 else 5
  | .prio _ => if s.cfg.maxPriority < data.toNat then 3 else 0
  | .threshold _ => if s.cfg.maxPriority < data.toNat then 3 else 0
  | .enable _ _ => 0

/-- The instruction a read decodes to leaves the code of the read. -/
theorem exec_readInstr {s : State} (hclean : s.fault = none) {g : Target} (hg : g.inRange s.cfg) :
    ∃ u, exec (readInstr g) s = .next u ∧ faultCode u.fault = readCode s g := by
  cases g with
  | prio id => exact ⟨_, execPrioRd_source hclean hg, congrArg faultCode hclean⟩
  | enable c w => exact ⟨_, execEnRd_word hclean hg.1 hg.2, congrArg faultCode hclean⟩
  | threshold c => exact ⟨_, execThrRd_context hclean hg, congrArg faultCode hclean⟩
  | claimComplete c =>
    cases hhs : s.hsAt c with
    | idle => exact ⟨_, execClaim_idle hclean hg hhs, by simp [readCode, hhs, hclean, faultCode]⟩
    | inService x => exact ⟨_, execClaim_nested hclean hg hhs, by simp [readCode, hhs, faultCode, FaultRecord.code]⟩

/-- The instruction a write decodes to leaves the code of the write. -/
theorem exec_writeInstr {s : State} (hclean : s.fault = none) {g : Target} (hg : g.inRange s.cfg) (data : Word) :
    ∃ u, exec (writeInstr data g) s = .next u ∧ faultCode u.fault = writeCode s data g := by
  cases g with
  | prio id =>
    by_cases hdata : s.cfg.maxPriority < data.toNat
    · exact ⟨_, execPrioWr_illegal hclean hg hdata, (if_pos hdata).symm⟩
    · exact ⟨_, execPrioWr_legal hclean hg (Nat.not_lt.mp hdata), (congrArg faultCode hclean).trans (if_neg hdata).symm⟩
  | enable c w => exact ⟨_, execEnWr_word hclean hg.1 hg.2, congrArg faultCode hclean⟩
  | threshold c =>
    by_cases hdata : s.cfg.maxPriority < data.toNat
    · exact ⟨_, execThrWr_illegal hclean hg hdata, (if_pos hdata).symm⟩
    · exact ⟨_, execThrWr_legal hclean hg (Nat.not_lt.mp hdata), (congrArg faultCode hclean).trans (if_neg hdata).symm⟩
  | claimComplete c =>
    by_cases hheld : s.hsAt c = .inService data.toNat
    · have hcode : faultCode s.fault = writeCode s data (.claimComplete c) :=
        (congrArg faultCode hclean).trans (if_pos hheld).symm
      by_cases htaken : s.cfg.completeRequiresEnable = false ∨ s.enAt c data.toNat = true
      · exact ⟨_, execComplete_taken hclean hg hheld htaken, hcode⟩
      · obtain ⟨hrequires, hoff⟩ : s.cfg.completeRequiresEnable = true ∧ s.enAt c data.toNat = false := by
          simpa [not_or] using htaken
        exact ⟨_, execComplete_ignored hclean hg hheld hrequires hoff, hcode⟩
    · exact ⟨_, execComplete_bad hclean hg hheld, (if_neg hheld).symm⟩

/-! Which register a target is: the tests of `expectedCode`. -/

/-- The target is the claim/complete register of a context that passes the test. -/
def claimTest (p : Nat → Bool) : Target → Bool
  | .claimComplete c => p c
  | .prio _ => false
  | .enable _ _ => false
  | .threshold _ => false

/-- The target is a threshold register. -/
def isThreshold : Target → Bool
  | .threshold _ => true
  | .prio _ => false
  | .enable _ _ => false
  | .claimComplete _ => false

/-- The target is a priority register. -/
def isPriority : Target → Bool
  | .prio _ => true
  | .enable _ _ => false
  | .threshold _ => false
  | .claimComplete _ => false

theorem claimTest_iff (p : Nat → Bool) (g : Target) : claimTest p g = true ↔ ∃ c, g = .claimComplete c ∧ p c = true := by
  cases g <;> simp [claimTest]

theorem isThreshold_iff (g : Target) : isThreshold g = true ↔ ∃ c, g = .threshold c := by
  cases g <;> simp [isThreshold]

theorem isPriority_iff (g : Target) : isPriority g = true ↔ ∃ id, g = .prio id := by
  cases g <;> simp [isPriority]

section
variable {cfg : Config} (hl : cfg.Layout) {g : Target} (hg : g.inRange cfg)
include hl hg

/-! A search for the offset of a target in range finds the target itself, since no other register stands there. -/

theorem any_clmOff (p : Nat → Bool) :
    (List.range cfg.numHarts).any (fun c => g.offset cfg == cfg.clmOff c && p c) = claimTest p g := by
  rw [Bool.eq_iff_iff, claimTest_iff]
  simp only [List.any_eq_true, List.mem_range, Bool.and_eq_true, beq_iff_eq]
  constructor
  · rintro ⟨c, hc, hoff, hp⟩
    exact ⟨c, target_unique hl hg (g' := .claimComplete c) (isContext_iff.mpr hc) hoff, hp⟩
  · rintro ⟨c, rfl, hp⟩
    exact ⟨c, isContext_iff.mp hg, rfl, hp⟩

/-- The search without a further test. -/
theorem any_clmOff_all :
    (List.range cfg.numHarts).any (fun c => g.offset cfg == cfg.clmOff c) = claimTest (fun _ => true) g := by
  simpa only [Bool.and_true] using any_clmOff hl hg fun _ => true

theorem any_thrOff : (List.range cfg.numHarts).any (fun c => g.offset cfg == cfg.thrOff c) = isThreshold g := by
  rw [Bool.eq_iff_iff, isThreshold_iff]
  simp only [List.any_eq_true, List.mem_range, beq_iff_eq]
  constructor
  · rintro ⟨c, hc, hoff⟩
    exact ⟨c, target_unique hl hg (g' := .threshold c) (isContext_iff.mpr hc) hoff⟩
  · rintro ⟨c, rfl⟩
    exact ⟨c, isContext_iff.mp hg, rfl⟩

theorem any_prioOff :
    (List.range' 1 cfg.numSources).any (fun id => g.offset cfg == cfg.prioOff id) = isPriority g := by
  rw [Bool.eq_iff_iff, isPriority_iff]
  simp only [List.any_eq_true, List.mem_range'_1, beq_iff_eq]
  constructor
  · rintro ⟨id, hid, hoff⟩
    exact ⟨id, target_unique hl hg (g' := .prio id) (isSource_iff.mpr (by omega)) hoff⟩
  · rintro ⟨id, rfl⟩
    have hid := isSource_iff.mp hg
    exact ⟨id, by omega, rfl⟩

/-- The offset word of a target in range holds the offset. -/
theorem toNat_ofNat_offset : (BitVec.ofNat 32 (g.offset cfg)).toNat = g.offset cfg := by
  rw [BitVec.toNat_ofNat, Nat.mod_eq_of_lt (offset_ok hl hg).1]

end

section
variable {s : State} (hl : s.cfg.Layout) {g : Target} (hg : g.inRange s.cfg)
include hl hg

/-- The part of `expectedCode` behind the map, for a read. -/
def readCheck (s : State) (off : Nat) : Nat :=
  if (List.range s.cfg.numHarts).any (fun c => off == s.cfg.clmOff c && s.hsAt c != .idle) then 4 else 0

/-- The part of `expectedCode` behind the map, for a write. -/
def writeCheck (s : State) (off : Nat) (data : Word) : Nat :=
  if (List.range s.cfg.numHarts).any (fun c => off == s.cfg.clmOff c) then
    if (List.range s.cfg.numHarts).any (fun c => off == s.cfg.clmOff c && s.hsAt c == .inService data.toNat) then 0 else 5
  else if ((List.range' 1 s.cfg.numSources).any (fun id => off == s.cfg.prioOff id) ||
    (List.range s.cfg.numHarts).any (fun c => off == s.cfg.thrOff c)) && decide (s.cfg.maxPriority < data.toNat)
  then 3 else 0

/-- The code expected of a read of a register is the code of the read. -/
theorem expectedCode_r32 : expectedCode s (Transaction.r32 (g.offset s.cfg)) = readCode s g := by
  obtain ⟨hok, -⟩ := isBad_r32_w32 (offset_ok hl hg) 0#32
  have hword := toNat_ofNat_offset hl hg
  have hm : s.cfg.mapped (g.offset s.cfg) = true := mapped_iff.mpr ⟨g, hg, rfl⟩
  calc expectedCode s (Transaction.r32 (g.offset s.cfg))
    _ = if (Transaction.r32 (g.offset s.cfg)).isBad then 1
        else if !s.cfg.mapped (BitVec.ofNat 32 (g.offset s.cfg)).toNat then 2
        else readCheck s (BitVec.ofNat 32 (g.offset s.cfg)).toNat := rfl
    _ = readCheck s (g.offset s.cfg) := by rw [hok, hword, hm]; rfl
    _ = readCode s g := by
      rw [readCheck, any_clmOff hl hg]
      cases g with
      | claimComplete c => cases hhs : s.hsAt c <;> simp [claimTest, readCode, hhs]
      | prio | enable | threshold => rfl

/-- The code expected of a write of a register is the code of the write. -/
theorem expectedCode_w32 (data : Word) : expectedCode s (Transaction.w32 (g.offset s.cfg) data) = writeCode s data g := by
  obtain ⟨-, hok⟩ := isBad_r32_w32 (offset_ok hl hg) data
  have hword := toNat_ofNat_offset hl hg
  have hm : s.cfg.mapped (g.offset s.cfg) = true := mapped_iff.mpr ⟨g, hg, rfl⟩
  calc expectedCode s (Transaction.w32 (g.offset s.cfg) data)
    _ = if (Transaction.w32 (g.offset s.cfg) data).isBad then 1
        else if !s.cfg.mapped (BitVec.ofNat 32 (g.offset s.cfg)).toNat then 2
        else writeCheck s (BitVec.ofNat 32 (g.offset s.cfg)).toNat data := rfl
    _ = writeCheck s (g.offset s.cfg) data := by rw [hok, hword, hm]; rfl
    _ = writeCode s data g := by
      rw [writeCheck, any_clmOff hl hg, any_clmOff_all hl hg, any_prioOff hl hg, any_thrOff hl hg]
      cases g <;> simp [claimTest, isThreshold, isPriority, writeCode]

end

/-- Settles O34: the three kinds of transactions in the order of the rule, and the register's own check last. -/
theorem oneFaultInPrecedenceOrder : Obligations.OneFaultInPrecedenceOrder := by
  intro s t hclean hwf
  have hl := layout_of_wf hwf
  rcases transaction_cases s.cfg t with hbad | ⟨hok, hm⟩ | ⟨g, hg, rfl | ⟨data, rfl⟩⟩
  · rw [request, decode_bad hbad]
    unfold expectedCode
    rw [if_pos hbad]
    exact ⟨_, execBadAccess_clean hclean t, rfl⟩
  · rw [request, decode_unmapped hl hok hm]
    unfold expectedCode
    rw [hok, hm]
    exact ⟨_, execUnmapped_clean hclean t, rfl⟩
  · rw [request, decode_r32 hl hg, expectedCode_r32 hl hg]
    exact exec_readInstr hclean hg
  · rw [request, decode_w32 hl hg, expectedCode_w32 hl hg]
    exact exec_writeInstr hclean hg data

end Sys2Proof.Machine
end

section
/-!
PROOFS, family of 40_masking_and_priority.md and 20_memory.md section 3: reads of priorities and thresholds, configuration
writes done twice, and masking (rule R58, rule R62, rule R100, rule R104, rule R137 to rule R139).
-/

namespace Sys2Proof.Machine

/-- A 32-bit read at an aligned offset without a register takes its fault (rule R72, rule R75). -/
theorem request_r32_unmapped {s : State} (hclean : s.fault = none) (hl : s.cfg.Layout) {off : Nat}
    (ho : off < 2 ^ 32 ∧ off % 4 = 0) (hm : s.cfg.mapped off = false) :
    request (.host (Transaction.r32 off)) s = .next (s.takeFault (.unmapped .read (offWord off))) := by
  rw [request, (decode_at_unmapped_offset hl ho hm 0#32).1]
  exact execUnmapped_clean hclean _

/-- Settles O8: the cases of PRIO_RD by its index; a write and a reset leave the value that the next read returns. -/
theorem priorityReadReturnsTheRegister : Obligations.PriorityReadReturnsTheRegister := by
  refine ⟨fun s id hclean h1 hN => ?_, fun s id hclean hwf _ hwindow hm => ?_, fun s id p hclean hs h1 hN hlegal => ?_,
    fun cfg n es id h1 hN => ?_⟩
  · have hid := isSource_of h1 hN
    exact ⟨⟨_, execPrioRd_source hclean hid, rfl, hclean, ⟨rfl, rfl, rfl⟩, ⟨rfl, rfl, rfl⟩, ⟨rfl, rfl⟩, rfl⟩,
      fun hwf => decode_r32 (layout_of_wf hwf) (g := .prio id) hid⟩
  · have hl := layout_of_wf hwf
    have haligned : s.cfg.prioOff id % 4 = 0 := by
      have := hl.aligned_prio
      rw [Config.prioOff]; omega
    exact ⟨_, request_r32_unmapped hclean hl ⟨hwindow, haligned⟩ hm, tookFault_takeFault s _⟩
  · have hid := isSource_of h1 hN
    have hwritten := (prioAt_setPrio_of_shape hs hid p id).trans (if_pos rfl)
    exact ⟨_, _, execPrioWr_legal hclean hid hlegal, execPrioRd_source (s := (s.setPrio id p).respond none) hclean hid,
      congrArg some hwritten⟩
  · exact ⟨_, execPrioRd_source (s := State.resetWith cfg n es) rfl (isSource_of h1 hN),
      congrArg some (prioAt_resetWith cfg n es h1 hN)⟩

/-- Settles O12: as for PRIO_RD, with a context in place of a source. -/
theorem thresholdReadReturnsTheRegister : Obligations.ThresholdReadReturnsTheRegister := by
  refine ⟨fun s c hclean hcontext => ?_, fun s c v hclean hs hcontext hlegal => ?_, fun cfg n es c hcontext => ?_⟩
  · have hc : s.cfg.isContext c = true := isContext_iff.mpr hcontext
    exact ⟨⟨_, execThrRd_context hclean hc, rfl, hclean, ⟨rfl, rfl, rfl⟩, ⟨rfl, rfl, rfl⟩, ⟨rfl, rfl⟩, rfl⟩,
      fun hwf => decode_r32 (layout_of_wf hwf) (g := .threshold c) hc⟩
  · have hc : s.cfg.isContext c = true := isContext_iff.mpr hcontext
    have hwritten := (thrAt_setThr_of_shape hs hc v c).trans (if_pos rfl)
    exact ⟨_, _, execThrWr_legal hclean hc hlegal, execThrRd_context (s := (s.setThr c v).respond none) hclean hc,
      congrArg some hwritten⟩
  · exact ⟨_, execThrRd_context (s := State.resetWith cfg n es) rfl (isContext_iff.mpr hcontext),
      congrArg some (thrAt_resetWith cfg n es hcontext)⟩

/-! Each configuration write leaves a state that it leaves as it is (rule R58). -/

theorem setPrio_idem (s : State) (id : Nat) (p : Word) :
    (((s.setPrio id p).respond none).setPrio id p).respond none = (s.setPrio id p).respond none := by
  have hlist : srcSet (srcSet s.prio id p) id p = srcSet s.prio id p := by
    cases id with
    | zero => rfl
    | succ k => exact List.set_set ..
  simp [State.setPrio, State.respond, hlist]

theorem setThr_idem (s : State) (c : Nat) (v : Word) :
    (((s.setThr c v).respond none).setThr c v).respond none = (s.setThr c v).respond none := by
  simp [State.setThr, State.respond, List.set_set]

/-- The bits that a second write of a word leaves are those of the first. -/
theorem enBitAfter_idem (s : State) {c w : Nat} {data : Word} (hc : c < s.en.length) {id : Nat}
    (hid : s.cfg.isSource id = true) : (s.writeEnWord c w data).enBitAfter c w data id = s.enBitAfter c w data id := by
  have hbit := enAt_writeEnWord s c w data c id hc
  rw [if_pos rfl, if_pos hid] at hbit
  rw [State.enBitAfter, hbit, State.enBitAfter]
  split <;> rfl

theorem writeEnWord_idem (s : State) (c w : Nat) (data : Word) :
    (((s.writeEnWord c w data).respond none).writeEnWord c w data).respond none = (s.writeEnWord c w data).respond none := by
  have hlist : ((s.writeEnWord c w data).writeEnWord c w data).en = (s.writeEnWord c w data).en := by
    simp only [State.writeEnWord_en, State.writeEnWord_cfg, List.set_set]
    by_cases hc : c < s.en.length
    · refine congrArg _ (List.map_congr_left fun id hid => enBitAfter_idem s hc ?_)
      rw [List.mem_range'_1] at hid
      exact isSource_of hid.1 (by omega)
    · rw [List.set_eq_of_length_le (Nat.not_lt.mp hc), List.set_eq_of_length_le (Nat.not_lt.mp hc)]
  calc (((s.writeEnWord c w data).respond none).writeEnWord c w data).respond none
    _ = { (s.writeEnWord c w data).respond none with en := ((s.writeEnWord c w data).writeEnWord c w data).en } := rfl
    _ = (s.writeEnWord c w data).respond none := by rw [hlist]; rfl

/-- Settles O16: a configuration write that did not fault is legal again on the state it left; a retired complete finds its
context idle. -/
theorem configurationWritesAreIdempotent : Obligations.ConfigurationWritesAreIdempotent := by
  constructor
  · rintro s t i hstep hclean (⟨id, p, rfl⟩ | ⟨c, w, data, rfl⟩ | ⟨c, v, rfl⟩)
    · obtain ⟨-, ⟨hid, hp, rfl⟩ | ⟨r, rfl⟩⟩ := execPrioWr_next hstep
      · exact (execPrioWr_legal (s := (s.setPrio id p).respond none) hclean hid hp).trans (by rw [setPrio_idem])
      · cases hclean
    · obtain ⟨-, ⟨hc, hw, rfl⟩ | ⟨r, rfl⟩⟩ := execEnWr_next hstep
      · exact (execEnWr_word (s := (s.writeEnWord c w data).respond none) hclean hc hw).trans (by rw [writeEnWord_idem])
      · cases hclean
    · obtain ⟨-, ⟨hc, hv, rfl⟩ | ⟨r, rfl⟩⟩ := execThrWr_next hstep
      · exact (execThrWr_legal (s := (s.setThr c v).respond none) hclean hc hv).trans (by rw [setThr_idem])
      · cases hclean
  · intro s t c data hstep hclean hidle
    obtain ⟨-, ⟨hc, -, -, rfl⟩ | ⟨-, hheld, -, rfl⟩ | ⟨r, rfl⟩⟩ := execComplete_next hstep
    · exact ⟨_, execComplete_bad_of_hsAt (s := (s.retire c data.toNat).respond none) hclean hc hidle nofun,
        tookFault_takeFault _ _⟩
    · cases hheld.symm.trans hidle
    · cases hclean

/-- Settles O23: each mask fails one condition of eligibility, and no write of an enable word touches the pending bits. -/
theorem maskingKeepsPendency : Obligations.MaskingKeepsPendency := by
  refine ⟨fun s c id hzero => ?_, fun s c id hbelow => ?_, fun s c id hinv hmax => ?_,
    fun s c id clear set hclean hs hcontext h1 hN hclear hset hip habove => ?_⟩
  · rw [← Bool.not_eq_true, eligible_iff, hzero]
    exact fun ⟨_, _, _, habove⟩ => Nat.not_lt_zero _ habove
  · rw [← Bool.not_eq_true, eligible_iff]
    exact fun ⟨_, _, _, habove⟩ => Nat.not_lt.mpr hbelow habove
  · rw [← Bool.not_eq_true, eligible_iff]
    rintro ⟨hid, -, -, habove⟩
    have hprio := hinv.prio_legal id (isSource_iff.mp hid).2
    omega
  · have hid := isSource_of h1 hN
    have hc : s.cfg.isContext c = true := isContext_iff.mpr hcontext
    have hw := isEnableWord_of_isSource hid
    have hs' : ((s.writeEnWord c (id / 32) clear).respond none).Shape :=
      (shape_writeEnWord hs c (id / 32) clear).congr ⟨rfl, rfl, rfl, rfl, rfl, rfl, rfl⟩
    refine ⟨_, _, execEnWr_word hclean hc hw, hip, ?_,
      execEnWr_word (s := (s.writeEnWord c (id / 32) clear).respond none) hclean hc hw, hip, ?_⟩
    · rw [eligible_respond, ← Bool.not_eq_true, eligible_writeEnWord hs hc, if_pos ⟨rfl, rfl⟩, hclear]
      exact fun ⟨_, _, hen, _⟩ => Bool.false_ne_true hen
    · rw [eligible_respond, eligible_writeEnWord hs' hc, if_pos ⟨rfl, rfl⟩]
      exact ⟨hid, hip, hset, habove⟩

end Sys2Proof.Machine
end

section
/-!
PROOFS, family of 41_arbiter.md section 3: the higher priority is claimed first (rule R135).
-/

namespace Sys2Proof.Machine

/-- Where a source is eligible there is a candidate (rule R133). -/
theorem exists_isCandidate {s : State} {c id : Nat} (h : eligible s c id = true) : ∃ m, IsCandidate s c m := by
  obtain ⟨m, hm, htop⟩ := exists_topPriority s c h
  exact ⟨m, hm, fun j hj => htop ▸ prio_le_topPriority s c j hj⟩

/-- The encoder answers no source below an eligible one. -/
theorem pick_ne_of_lower {s : State} {c a b : Nat} (ha : eligible s c a = true)
    (hlower : (s.prioAt b).toNat < (s.prioAt a).toNat) (k : Word) : pick s c k ≠ b := by
  rintro rfl
  obtain ⟨m, hm⟩ := exists_isCandidate ha
  obtain ⟨-, hmax⟩ := isCandidate_pick hm k
  have hle := hmax a ha
  omega

/-- Settles O21: the claim returns the encoder's candidate, whose word is not that of the lower source. -/
theorem higherPriorityIsClaimedFirst : Obligations.HigherPriorityIsClaimedFirst := by
  refine ⟨fun s c a b k ha _ hlower => pick_ne_of_lower ha hlower k,
    fun s c a b hclean hwf hcontext hidle ha hb hlower => ?_⟩
  obtain ⟨m, hm⟩ := exists_isCandidate ha
  have hbN : b ≤ s.cfg.numSources := (isSource_iff.mp ((eligible_iff s c b).mp hb).1).2
  refine ⟨_, _, execClaim_idle hclean (isContext_iff.mpr hcontext) hidle, rfl, isCandidate_pick hm _, fun hsame => ?_⟩
  exact pick_ne_of_lower ha hlower _ (eq_of_ofNat_eq hwf (pick_le_numSources s c _) hbN (Option.some.inj hsame))

end Sys2Proof.Machine
end

section
/-!
PROOFS, families of 20_memory.md, 30_encoding.md and 70_reset_and_hazards.md: the step by its next event, the reference words,
and the reset values (rule R51, rule R62, rule R200).
-/

namespace Sys2Proof.Machine

/-- Settles O1: words and configuration are closed terms, on which the decoder is evaluated. -/
theorem referenceWordsDecode : Obligations.ReferenceWordsDecode := by
  unfold Obligations.ReferenceWordsDecode
  decide

/-- A host access whose distance from `BASE` is no 32-bit number is presented at no offset (log entry 10). -/
theorem present_outside {cfg : Config} {a : BusAccess} (h : a.place < cfg.base ∨ cfg.base + 2 ^ 32 ≤ a.place) :
    present cfg a = none := by
  rw [present, presentOff, if_neg (by omega), Option.map_none]

/-- Settles O2: the step is the first event, and an event is its instruction, a reset or a refusal. -/
theorem stepRunsTheDecodedInstruction : Obligations.StepRunsTheDecodedInstruction := by
  refine ⟨fun s t es hwf he => ?_, fun s id es hwf he => step_of_inputs hwf he, fun s es hwf he => step_of_inputs hwf he,
    fun s a es hwf he hout => ?_, fun s hwf he => ?_⟩
  · exact (step_of_inputs hwf he).trans (runEvent_moveTo (s.withInputs es) t)
  · rw [step_of_inputs hwf he, runEvent, State.withInputs_cfg, present_outside hout]
  · rw [step, if_pos hwf, he]

/-- Settles O18: RAISE tests its ID first. -/
theorem requestOfNoSourceLineIsRefused : Obligations.RequestOfNoSourceLineIsRefused := by
  refine ⟨fun s id hid => execRaise_noLine (not_isSource_of hid), fun s id es hwf he => ?_⟩
  have hstep : step s = execRaise id (s.withInputs es) := step_of_inputs hwf he
  rw [hstep, ← isSource_iff]
  constructor
  · exact fun hid => ⟨_, by rw [execRaise, State.withInputs_cfg, if_pos hid]⟩
  · rintro ⟨t, ht⟩
    exact (execRaise_next ht).1

/-- Settles O36: the accessors of the reset state, and the step of a reset event. -/
theorem resetEstablishesTheResetValues : Obligations.ResetEstablishesTheResetValues := by
  refine ⟨?_, rfl, fun s es hwf he => step_of_inputs hwf he⟩
  rintro cfg n es _ rfl
  refine ⟨fun id h1 hN => ?_, fun c hc => ?_, rfl, rfl, rfl, ?_⟩
  · have hprio := prioAt_resetWith cfg n es h1 hN
    exact ⟨hprio, hprio ▸ drawPriority_le cfg _, ipAt_resetWith cfg n es id, insvcAt_resetWith cfg n es id⟩
  · have hthr := thrAt_resetWith cfg n es hc
    exact ⟨hthr, hthr ▸ drawPriority_le cfg _, hsAt_resetWith cfg n es c, fun id => enAt_resetWith cfg n es hc⟩
  · simp only [State.resetWith, resetDraws]
    omega

end Sys2Proof.Machine
end

section
/-!
PROOFS, family of 30_encoding.md section 5: the host sequences (rule R90 to rule R96) and the read-modify-write race
(70_reset_and_hazards.md section 3).
-/

namespace Sys2Proof.Machine

/-! ## An access of a sequence -/

@[simp] theorem andThen_next (s : State) (f : State → Host.Outcome State Fault Refusal) : andThen (.next s) f = f s := rfl

@[simp] theorem andThen_refused (r : Refusal) (f : State → Host.Outcome State Fault Refusal) :
    andThen (.refused r) f = .refused r := rfl

/-- Settles O46: the first access of each operation is refused, and a stop stays a stop. -/
theorem sequenceAccessBeyondTheOffsetsIsRefused : Obligations.SequenceAccessBeyondTheOffsetsIsRefused := by
  refine ⟨fun s off v hoff => ⟨readReg_of_offset s hoff, writeReg_of_offset s v hoff⟩,
    fun s off v hoff => ⟨readReg_beyond s hoff, writeReg_beyond s v hoff⟩, fun s c id hoff => ⟨?_, ?_⟩,
    fun s id p h1 hN hoff => ?_, fun s c v hoff => writeReg_beyond s v hoff, fun s c hN hoff => ?_,
    fun s c v registered hoff => ⟨readReg_beyond s hoff, writeReg_beyond s v hoff, ?_⟩⟩
  · rw [driverEnable, readReg_beyond s hoff, andThen_refused]
  · rw [driverDisable, readReg_beyond s hoff, andThen_refused]
  · rw [driverSetPriority, if_pos (isSource_of h1 hN), writeReg_beyond s p hoff]
  · obtain ⟨n, hn⟩ : ∃ n, s.cfg.numSources = n + 1 := ⟨s.cfg.numSources - 1, by omega⟩
    have hfirst : driverDisable c 1 s = .refused .notRouted := by rw [driverDisable, readReg_beyond s hoff, andThen_refused]
    simp only [driverInit, hn, List.range'_succ, driverInitSources, hfirst, andThen_refused]
  · rw [driverDispatch, driverClaim, readReg_beyond s hoff, andThen_refused]

section
variable {s : State} (hl : s.cfg.Layout) {g : Target} (hg : g.inRange s.cfg)
include hl hg

/-- A sequence's read of a register runs the read row. -/
theorem readReg_offset : readReg (g.offset s.cfg) s = exec (readInstr g) s := by
  rw [readReg_of_offset s (offset_ok hl hg).1, request, decode_r32 hl hg]

/-- A sequence's write of a register runs the write row. -/
theorem writeReg_offset (v : Word) : writeReg (g.offset s.cfg) v s = exec (writeInstr v g) s := by
  rw [writeReg_of_offset s v (offset_ok hl hg).1, request, decode_w32 hl hg]

end

/-! ## The enable word of a source, read and written -/

/-- The mask has the one bit of the source (rule R76, rule R90). -/
theorem getLsbD_enableMask (id b : Nat) : (enableMask id).getLsbD b = decide (b = id % 32) := by
  rw [enableMask, BitVec.getLsbD_shiftLeft, BitVec.getLsbD_one]
  by_cases heq : b = id % 32
  · simp [heq, Nat.mod_lt]
  · have hne : ¬ (id % 32 ≤ b ∧ b - id % 32 = 0) := by omega
    by_cases hlt : b < id % 32
    · simp [hlt, heq]
    · have : b - id % 32 ≠ 0 := by omega
      simp [heq, this]

/-- Two sources of one enable word have the same bit only when they are the same. -/
theorem getLsbD_enableMask_source {id j : Nat} (hw : j / 32 = id / 32) :
    (enableMask id).getLsbD (j % 32) = decide (j = id) := by
  rw [getLsbD_enableMask]
  exact decide_eq_decide.mpr (by omega)

section
variable (s : State) (c : Nat) (k : Word) {id j : Nat} (hj : s.cfg.isSource j = true) (hw : j / 32 = id / 32)
include hj hw

/-- The word read with the bit of `id` set holds the bit of every other source of the word as it was read. -/
theorem getLsbD_enWord_or_mask : (s.enWord c (id / 32) k ||| enableMask id).getLsbD (j % 32) =
    if j = id then true else s.enAt c j := by
  rw [BitVec.getLsbD_or, getLsbD_enableMask_source hw, ← hw, getLsbD_enWord_source s c k hj]
  by_cases heq : j = id <;> simp [heq]

/-- The word read with the bit of `id` cleared holds the bit of every other source of the word as it was read. -/
theorem getLsbD_enWord_and_not_mask : (s.enWord c (id / 32) k &&& ~~~(enableMask id)).getLsbD (j % 32) =
    if j = id then false else s.enAt c j := by
  rw [BitVec.getLsbD_and, BitVec.getLsbD_not, getLsbD_enableMask_source hw, ← hw, getLsbD_enWord_source s c k hj]
  by_cases heq : j = id <;> simp [heq, Nat.mod_lt]

end

/-- The state after a read of an enable word (rule R102). -/
def State.readEnWord (s : State) (c w : Nat) : State := s.countDraw.respond (some (s.enWord c w s.drawn))

theorem value_readEnWord (s : State) (c w : Nat) : (s.readEnWord c w).value = s.enWord c w s.drawn := rfl

theorem shape_readEnWord {s : State} (hs : s.Shape) (c w : Nat) : (s.readEnWord c w).Shape :=
  hs.congr ⟨rfl, rfl, rfl, rfl, rfl, rfl, rfl⟩

theorem shape_respond {s : State} (hs : s.Shape) (v : Option Word) : (s.respond v).Shape :=
  hs.congr ⟨rfl, rfl, rfl, rfl, rfl, rfl, rfl⟩

section
variable {s : State} (hclean : s.fault = none) (hwf : s.cfg.wf = true) {c w : Nat} (hc : s.cfg.isContext c = true)
  (hw : s.cfg.isEnableWord w = true)
include hclean hwf hc hw

theorem readReg_enable :
    readReg (s.cfg.enwOff c w) s = .next (s.readEnWord c w) :=
  (readReg_offset (layout_of_wf hwf) (g := .enable c w) ⟨hc, hw⟩).trans (execEnRd_word hclean hc hw)

theorem writeReg_enable (data : Word) : writeReg (s.cfg.enwOff c w) data s = .next ((s.writeEnWord c w data).respond none) :=
  (writeReg_offset (layout_of_wf hwf) (g := .enable c w) ⟨hc, hw⟩ data).trans (execEnWr_word hclean hc hw)

end

/-- `t` is `s` but for the enable bit of `id` in context `c`, which is `b`, and for what the reads of a sequence use up. -/
structure EnableBitIs (c id : Nat) (b : Bool) (s t : State) : Prop where
  clean : t.fault = none
  shape : t.Shape
  enAt_same : t.enAt c id = b
  enAt_other : ∀ k j, (k ≠ c ∨ j ≠ id) → t.enAt k j = s.enAt k j
  prio : t.prio = s.prio
  thr : t.thr = s.thr
  interrupts : SameInterruptState s t
  setting : SameSetting s t

section
variable {s : State} (hclean : s.fault = none) (hs : s.Shape) (hwf : s.cfg.wf = true) {c id : Nat}
  (hc : s.cfg.isContext c = true) (hid : s.cfg.isSource id = true)
include hclean hs hwf hc hid

/-- A read of the source's enable word and a write of a word that differs from it in the source's bit only. -/
theorem enableBitIs_of_readModifyWrite {f : Word → Word} {b : Bool}
    (hf : ∀ j, s.cfg.isSource j = true → j / 32 = id / 32 →
      (f (s.enWord c (id / 32) s.drawn)).getLsbD (j % 32) = if j = id then b else s.enAt c j) :
    ∃ t, andThen (readReg (s.cfg.enwOff c (id / 32)) s)
        (fun t => writeReg (s.cfg.enwOff c (id / 32)) (f t.value) t) = .next t ∧
      EnableBitIs c id b s t := by
  have hw := isEnableWord_of_isSource hid
  have hs' := shape_readEnWord hs c (id / 32)
  have hbit := fun k j => enAt_writeEnWord_of_shape hs' (w := id / 32) (f (s.enWord c (id / 32) s.drawn)) k j hc
  refine ⟨((s.readEnWord c (id / 32)).writeEnWord c (id / 32) (f (s.enWord c (id / 32) s.drawn))).respond none, ?_, hclean,
    shape_respond (shape_writeEnWord hs' c (id / 32) _) none, ?_, fun k j hkj => ?_, rfl, rfl, ⟨rfl, rfl, rfl⟩, ⟨rfl, rfl⟩⟩
  · rw [readReg_enable hclean hwf hc hw, andThen_next]
    exact writeReg_enable (s := s.readEnWord c (id / 32)) hclean hwf hc hw _
  · refine (hbit c id).trans ((if_pos ⟨rfl, hid, rfl⟩).trans ?_)
    rw [hf id hid rfl, if_pos rfl]
  · refine (hbit k j).trans ?_
    split
    · next hnamed =>
      obtain ⟨rfl, hj, hjw⟩ := hnamed
      rw [hf j hj hjw, if_neg (hkj.resolve_left (not_not.mpr rfl))]
    · rfl

theorem enableBitIs_of_driverEnable : ∃ t, driverEnable c id s = .next t ∧ EnableBitIs c id true s t :=
  enableBitIs_of_readModifyWrite hclean hs hwf hc hid (f := (· ||| enableMask id))
    fun _ hj hw => getLsbD_enWord_or_mask s c s.drawn hj hw

theorem enableBitIs_of_driverDisable : ∃ t, driverDisable c id s = .next t ∧ EnableBitIs c id false s t :=
  enableBitIs_of_readModifyWrite hclean hs hwf hc hid (f := (· &&& ~~~(enableMask id)))
    fun _ hj hw => getLsbD_enWord_and_not_mask s c s.drawn hj hw

end

/-- Settles O42: both sequences write back the word they read, but for the source's bit. -/
theorem enableAndDisableAreBitPrecise : Obligations.EnableAndDisableAreBitPrecise := by
  intro s c id hclean hs hwf hcontext h1 hN
  have hc : s.cfg.isContext c = true := isContext_iff.mpr hcontext
  have hid := isSource_of h1 hN
  obtain ⟨t, ht, hset⟩ := enableBitIs_of_driverEnable hclean hs hwf hc hid
  obtain ⟨u, hu, hcleared⟩ := enableBitIs_of_driverDisable hclean hs hwf hc hid
  exact ⟨⟨t, ht, hset.clean, hset.enAt_same, hset.enAt_other, hset.prio, hset.thr, hset.interrupts⟩,
    ⟨u, hu, hcleared.clean, hcleared.enAt_same, hcleared.enAt_other, hcleared.prio, hcleared.thr, hcleared.interrupts⟩⟩

/-- Settles O43: the last write stores the word as first read, with the source's bit set, over the other write. -/
theorem interleavedEnableLosesTheOtherWrite : Obligations.InterleavedEnableLosesTheOtherWrite := by
  intro s c id other hclean hs hwf hcontext h1 hN
  have hc : s.cfg.isContext c = true := isContext_iff.mpr hcontext
  have hid := isSource_of h1 hN
  have hw := isEnableWord_of_isSource hid
  have hs' := shape_readEnWord hs c (id / 32)
  have hs'' := shape_respond (shape_writeEnWord hs' c (id / 32) other) none
  have hother := fun j => enAt_writeEnWord_of_shape hs' (w := id / 32) other c j hc
  have hbit := fun j => enAt_writeEnWord_of_shape hs'' (w := id / 32)
    (s.enWord c (id / 32) s.drawn ||| enableMask id) c j hc
  refine ⟨_, _, _, readReg_enable hclean hwf hc hw,
    writeReg_enable (s := s.readEnWord c (id / 32)) hclean hwf hc hw other,
    writeReg_enable (s := ((s.readEnWord c (id / 32)).writeEnWord c (id / 32) other).respond none) hclean hwf hc hw _,
    hclean, ?_, fun j hj => ?_⟩
  · refine (hbit id).trans ((if_pos ⟨rfl, hid, rfl⟩).trans ?_)
    rw [getLsbD_enWord_or_mask s c s.drawn hid rfl, if_pos rfl]
  · refine (hbit j).trans ?_
    split
    · next hnamed =>
      obtain ⟨-, hjs, hjw⟩ := hnamed
      rw [getLsbD_enWord_or_mask s c s.drawn hjs hjw, if_neg hj]
    · next hnamed => exact (hother j).trans (if_neg hnamed)

end Sys2Proof.Machine
end

section
/-!
PROOFS, family of 70_reset_and_hazards.md section 2 and 30_encoding.md section 5: INIT by induction on its list of sources, and
DISPATCH (rule R95, rule R96, rule R156, rule R203).
-/

namespace Sys2Proof.Machine

/-- `t` is `s` but for the sources of `ids`, which are disabled for context `c` and of priority 0. -/
structure SourcesCleared (c : Nat) (ids : List Nat) (s t : State) : Prop where
  clean : t.fault = none
  shape : t.Shape
  enAt_context : ∀ id, t.enAt c id = if id ∈ ids then false else s.enAt c id
  prioAt : ∀ id, t.prioAt id = if id ∈ ids then 0#32 else s.prioAt id
  enAt_other : ∀ k, k ≠ c → ∀ id, t.enAt k id = s.enAt k id
  thr : t.thr = s.thr
  interrupts : SameInterruptState s t
  setting : SameSetting s t

theorem SameInterruptState.trans {s t u : State} : SameInterruptState s t → SameInterruptState t u → SameInterruptState s u
  | ⟨hip, hinsvc, hhs⟩, ⟨hip', hinsvc', hhs'⟩ => ⟨hip'.trans hip, hinsvc'.trans hinsvc, hhs'.trans hhs⟩

theorem SameRegisters.trans {s t u : State} : SameRegisters s t → SameRegisters t u → SameRegisters s u
  | ⟨hprio, hen, hthr⟩, ⟨hprio', hen', hthr'⟩ => ⟨hprio'.trans hprio, hen'.trans hen, hthr'.trans hthr⟩

theorem SameSetting.trans {s t u : State} : SameSetting s t → SameSetting t u → SameSetting s u
  | ⟨hcfg, hinputs⟩, ⟨hcfg', hinputs'⟩ => ⟨hcfg'.trans hcfg, hinputs'.trans hinputs⟩

/-- A sequence's write of a legal priority. -/
theorem driverSetPriority_legal {s : State} (hclean : s.fault = none) (hwf : s.cfg.wf = true) {id : Nat}
    (hid : s.cfg.isSource id = true) {p : Word} (hp : p.toNat ≤ s.cfg.maxPriority) :
    driverSetPriority id p s = .next ((s.setPrio id p).respond none) := by
  rw [driverSetPriority, if_pos hid]
  exact (writeReg_offset (layout_of_wf hwf) (g := .prio id) hid p).trans (execPrioWr_legal hclean hid hp)

/-- A sequence's write of a legal threshold. -/
theorem driverSetThreshold_legal {s : State} (hclean : s.fault = none) (hwf : s.cfg.wf = true) {c : Nat}
    (hc : s.cfg.isContext c = true) {v : Word} (hv : v.toNat ≤ s.cfg.maxPriority) :
    driverSetThreshold c v s = .next ((s.setThr c v).respond none) :=
  (writeReg_offset (layout_of_wf hwf) (g := .threshold c) hc v).trans (execThrWr_legal hclean hc hv)

/-- One pass of the loop of INIT: the source is disabled, then its priority is zeroed. -/
theorem sourcesCleared_single {s : State} (hclean : s.fault = none) (hs : s.Shape) (hwf : s.cfg.wf = true) {c id : Nat}
    (hc : s.cfg.isContext c = true) (hid : s.cfg.isSource id = true) :
    ∃ t, andThen (driverDisable c id s) (driverSetPriority id 0#32) = .next t ∧ SourcesCleared c [id] s t := by
  obtain ⟨u, hu, hcleared⟩ := enableBitIs_of_driverDisable hclean hs hwf hc hid
  have hcfg : u.cfg = s.cfg := hcleared.setting.1
  have hid' : u.cfg.isSource id = true := hcfg ▸ hid
  refine ⟨(u.setPrio id 0#32).respond none, ?_, hcleared.clean, shape_respond (shape_setPrio hcleared.shape id _) none,
    fun j => ?_, fun j => ?_, fun k hk j => hcleared.enAt_other k j (Or.inl hk), hcleared.thr, hcleared.interrupts,
    hcleared.setting⟩
  · rw [hu, andThen_next]
    exact driverSetPriority_legal hcleared.clean (hcfg ▸ hwf) hid' (Nat.zero_le _)
  · simp only [List.mem_singleton]
    split
    · next heq => exact heq ▸ hcleared.enAt_same
    · next hne => exact hcleared.enAt_other c j (Or.inr hne)
  · have hprio : u.prioAt j = s.prioAt j := by rw [State.prioAt, hcleared.prio, State.prioAt]
    rw [State.prioAt_respond, prioAt_setPrio_of_shape hcleared.shape hid', hprio]
    simp only [List.mem_singleton]

/-- Clearing one source and then others clears them all. -/
theorem SourcesCleared.cons {c id : Nat} {ids : List Nat} {s t u : State} (h : SourcesCleared c [id] s t)
    (h' : SourcesCleared c ids t u) : SourcesCleared c (id :: ids) s u where
  clean := h'.clean
  shape := h'.shape
  enAt_context j := by
    rw [h'.enAt_context, h.enAt_context]
    by_cases hj : j = id <;> simp [hj]
  prioAt j := by
    rw [h'.prioAt, h.prioAt]
    by_cases hj : j = id <;> simp [hj]
  enAt_other k hk j := (h'.enAt_other k hk j).trans (h.enAt_other k hk j)
  thr := h'.thr.trans h.thr
  interrupts := h.interrupts.trans h'.interrupts
  setting := h.setting.trans h'.setting

/-- The loop of INIT, by induction on its list. -/
theorem sourcesCleared_of_driverInitSources {c : Nat} (ids : List Nat) {s : State} (hclean : s.fault = none) (hs : s.Shape)
    (hwf : s.cfg.wf = true) (hc : s.cfg.isContext c = true) (hids : ∀ id ∈ ids, s.cfg.isSource id = true) :
    ∃ t, driverInitSources c ids s = .next t ∧ SourcesCleared c ids s t := by
  induction ids generalizing s with
  | nil =>
    exact ⟨s, rfl, hclean, hs, fun _ => by simp, fun _ => by simp, fun _ _ _ => rfl, rfl, ⟨rfl, rfl, rfl⟩, ⟨rfl, rfl⟩⟩
  | cons id ids ih =>
    obtain ⟨t, ht, hfirst⟩ := sourcesCleared_single hclean hs hwf hc (hids id List.mem_cons_self)
    have hcfg : t.cfg = s.cfg := hfirst.setting.1
    obtain ⟨u, hu, hrest⟩ := ih hfirst.clean hfirst.shape (hcfg ▸ hwf) (hcfg ▸ hc)
      fun j hj => hcfg ▸ hids j (List.mem_cons_of_mem id hj)
    exact ⟨u, by rw [driverInitSources, ht, andThen_next, hu], hfirst.cons hrest⟩

/-- Settles O44: the loop clears the sources `1..N`, and the last write zeroes the threshold. -/
theorem initDisablesAndZeroesEverySource : Obligations.InitDisablesAndZeroesEverySource := by
  intro s c hclean hs hwf hcontext
  have hc : s.cfg.isContext c = true := isContext_iff.mpr hcontext
  obtain ⟨t, ht, hcleared⟩ := sourcesCleared_of_driverInitSources (List.range' 1 s.cfg.numSources) hclean hs hwf hc
    fun id hid => by rw [List.mem_range'_1] at hid; exact isSource_of hid.1 (by omega)
  have hcfg : t.cfg = s.cfg := hcleared.setting.1
  have hc' : t.cfg.isContext c = true := hcfg ▸ hc
  have hthr := thrAt_setThr_of_shape hcleared.shape hc' 0#32
  refine ⟨(t.setThr c 0#32).respond none, ?_, hcleared.clean, fun id h1 hN => ?_, (hthr c).trans (if_pos rfl),
    fun k hk => ⟨fun id => hcleared.enAt_other k hk id, ?_⟩, hcleared.interrupts, hcleared.setting⟩
  · rw [driverInit, ht, andThen_next]
    exact driverSetThreshold_legal hcleared.clean (hcfg ▸ hwf) hc' (Nat.zero_le _)
  · have hmem : id ∈ List.range' 1 s.cfg.numSources := List.mem_range'_1.mpr (by omega)
    exact ⟨(hcleared.enAt_context id).trans (if_pos hmem), (hcleared.prioAt id).trans (if_pos hmem)⟩
  · refine (hthr k).trans ((if_neg hk).trans ?_)
    rw [State.thrAt, hcleared.thr, State.thrAt]

/-- A sequence's claim is the claim row. -/
theorem driverClaim_eq {s : State} (hwf : s.cfg.wf = true) {c : Nat} (hc : s.cfg.isContext c = true) :
    driverClaim c s = exec (.claim c) s := readReg_offset (layout_of_wf hwf) (g := .claimComplete c) hc

/-- A sequence's complete is the complete row. -/
theorem driverComplete_eq {s : State} (hwf : s.cfg.wf = true) {c : Nat} (hc : s.cfg.isContext c = true) (id : Word) :
    driverComplete c id s = exec (.complete c id) s := writeReg_offset (layout_of_wf hwf) (g := .claimComplete c) hc id

/-- DISPATCH after its claim has returned the ID of a source: the complete, if there is a callback. -/
theorem driverDispatch_of_claimed {s t : State} (hwf : s.cfg.wf = true) {c id : Nat} (hc : s.cfg.isContext c = true)
    (hid : s.cfg.isSource id = true) (hclaim : exec (.claim c) s = .next t) (hcfg : t.cfg = s.cfg)
    (hresult : t.result = some (BitVec.ofNat 32 id)) (registered : Nat → Bool) :
    driverDispatch registered c s = if registered id then exec (.complete c (BitVec.ofNat 32 id)) t else .next t := by
  obtain ⟨h1, hN⟩ := isSource_iff.mp hid
  have hword := toNat_ofNat_of_le_numSources hwf hN
  have hvalue : t.value = BitVec.ofNat 32 id := by rw [State.value, hresult, Option.getD_some]
  have hne : BitVec.ofNat 32 id ≠ 0#32 := fun h => by
    rw [h] at hword
    exact absurd hword (Nat.ne_of_lt h1)
  rw [driverDispatch, driverClaim_eq hwf hc, hclaim, andThen_next, hvalue, if_neg hne, hword,
    driverComplete_eq (hcfg ▸ hwf) (hcfg ▸ hc)]

/-- DISPATCH after its claim has returned 0. -/
theorem driverDispatch_of_nothing {s t : State} (hwf : s.cfg.wf = true) {c : Nat} (hc : s.cfg.isContext c = true)
    (hclaim : exec (.claim c) s = .next t) (hresult : t.result = some 0#32) (registered : Nat → Bool) :
    driverDispatch registered c s = .next t := by
  have hvalue : t.value = 0#32 := by rw [State.value, hresult, Option.getD_some]
  rw [driverDispatch, driverClaim_eq hwf hc, hclaim, andThen_next, if_pos hvalue]

/-- Settles O45: the claim marks the pick, which was pending, so not in service, and enabled, so that its complete is taken. -/
theorem dispatchPairsClaimAndComplete : Obligations.DispatchPairsClaimAndComplete := by
  intro s c registered hclean hinv hwf hcontext hidle
  have hc : s.cfg.isContext c = true := isContext_iff.mpr hcontext
  obtain ⟨-, -, hclaim⟩ := claimReturnsAndMarksThePick s c hclean hinv.shape hwf hcontext
  obtain ⟨t, id, hpick, hfirst, hresult, hclean', hregisters, ⟨hcfg, -⟩, -, -, -, hnothing, hmarked⟩ := hclaim hidle
  by_cases hzero : id = 0
  · exact ⟨t, id, driverDispatch_of_nothing hwf hc hfirst (hzero ▸ hresult) registered, hclean', hpick, hregisters, hnothing,
      fun h => absurd hzero h⟩
  · obtain ⟨hid, hpending, hen, -⟩ := (eligible_iff s c id).mp (hpick ▸ eligible_of_pick (hpick ▸ hzero))
    obtain ⟨h1, hN⟩ := isSource_iff.mp hid
    obtain ⟨hip, hinsvc, hheld, hothers, -⟩ := hmarked hzero
    have hdispatch := driverDispatch_of_claimed hwf hc hid hfirst hcfg hresult registered
    cases hcallback : registered id with
    | false =>
      rw [hcallback] at hdispatch
      exact ⟨t, id, hdispatch, hclean', hpick, hregisters, fun h => absurd h hzero,
        fun _ => ⟨hip, fun j hj => (hothers j hj).1, fun h => (by cases hcallback.symm.trans h), fun _ => ⟨hheld, hinsvc⟩⟩⟩
    | true =>
      rw [hcallback] at hdispatch
      have ⟨_, hsameEn, _⟩ := hregisters
      have henabled : t.enAt c id = true := by rwa [State.enAt, hsameEn]
      obtain ⟨-, -, -, hcomplete, -⟩ :=
        completeRetiresTheHeldId t c (BitVec.ofNat 32 id) hclean' (inv_of_exec hinv hfirst) (hcfg ▸ hcontext)
      rw [toNat_ofNat_of_le_numSources hwf hN] at hcomplete
      obtain ⟨u, -, hsecond, hfree, hidle', hrest, -, hip', hregisters', hclean'', -⟩ := hcomplete hheld (Or.inr henabled)
      have hpendingAt : ∀ j, u.ipAt j = t.ipAt j := fun j => by rw [State.ipAt, hip', State.ipAt]
      refine ⟨u, id, hdispatch.trans hsecond, hclean'', hpick, hregisters.trans hregisters', fun h => absurd h hzero,
        fun _ => ⟨(hpendingAt id).trans hip, fun j hj => (hpendingAt j).trans (hothers j hj).1,
          fun _ => ⟨hidle', fun j => ?_⟩, fun h => (by cases hcallback.symm.trans h)⟩⟩
      by_cases hj : j = id
      · rw [hj, hfree, hinv.pending_not_inService id hN hpending]
      · exact (hrest j hj).trans (hothers j hj).2

end Sys2Proof.Machine
end
